-- ==== Sys2Proof/Word.lean ====
section
/-! DEFINITION. The two word types of the machine (spec/00_scope.md R6): a byte is 8 bits, a word or
address 16 bits. Sums on them wrap modulo 256 and 65536, which is `wrap8` and `wrap16` of R6. -/

namespace Sys2Proof

/-- A byte: the width of A, X, Y, P, SP and of a memory cell (R5, R6). -/
abbrev Byte := BitVec 8

/-- A word: the width of PC and of an address (R5, R6). -/
abbrev Word := BitVec 16

end Sys2Proof
end

