-- ==== Sys2Proof/Syntax.lean ====
section
/-! DEFINITION. The instructions as syntax: addressing modes, operand forms and one constructor of
`Instr` for every row of spec/opcode_table.json (spec/30_encoding.md R80-R93). -/

namespace Sys2Proof

/-- The ten addressing-mode variants, a closed set (R93). -/
inductive Mode where
  | immediate | zeroPage | zeroPageX | zeroPageY | absolute | absoluteX | absoluteY
  | indirectX | indirectY | noneAddressing
  deriving DecidableEq, Repr

/-- The mnemonics of the opcode table's 24 admitted rows (R84). -/
inductive Mnemonic where
  | lda | sta | tax | txs | tsx | inx | pha | pla | php | plp | nop
  deriving DecidableEq, Repr

/-- An operand as the instruction's bytes give it, one form per mode that has operand bytes
(R82, R83). `d8` is the operand value, `zz` a zero-page address before indexing, `hhll` an absolute
address before indexing. -/
inductive Operand where
  | immediate (d8 : Byte)
  | zeroPage (zz : Byte)
  | zeroPageX (zz : Byte)
  | zeroPageY (zz : Byte)
  | absolute (hhll : Word)
  | absoluteX (hhll : Word)
  | absoluteY (hhll : Word)
  | indirectX (zz : Byte)
  | indirectY (zz : Byte)
  deriving DecidableEq, Repr

/-- The addressing mode of an operand form. -/
def Operand.mode : Operand → Mode
  | .immediate _ => .immediate
  | .zeroPage _ => .zeroPage
  | .zeroPageX _ => .zeroPageX
  | .zeroPageY _ => .zeroPageY
  | .absolute _ => .absolute
  | .absoluteX _ => .absoluteX
  | .absoluteY _ => .absoluteY
  | .indirectX _ => .indirectX
  | .indirectY _ => .indirectY

/-- The instructions: the 24 rows of R84 and the unknown opcode of R88. -/
inductive Instr where
  /-- LDA Immediate, 0xA9 (R121). -/
  | ldaImm (d8 : Byte)
  /-- LDA ZeroPage, 0xA5 (R122). -/
  | ldaZp (zz : Byte)
  /-- LDA ZeroPage-X, 0xB5 (R123). -/
  | ldaZpX (zz : Byte)
  /-- LDA Absolute, 0xAD (R124). -/
  | ldaAbs (hhll : Word)
  /-- LDA Absolute-X, 0xBD (R125). -/
  | ldaAbsX (hhll : Word)
  /-- LDA Absolute-Y, 0xB9 (R126). -/
  | ldaAbsY (hhll : Word)
  /-- LDA Indirect-X, 0xA1 (R127). -/
  | ldaIndX (zz : Byte)
  /-- LDA Indirect-Y, 0xB1 (R128). -/
  | ldaIndY (zz : Byte)
  /-- STA ZeroPage, 0x85 (R131). -/
  | staZp (zz : Byte)
  /-- STA ZeroPage-X, 0x95 (R132). -/
  | staZpX (zz : Byte)
  /-- STA Absolute, 0x8D (R133). -/
  | staAbs (hhll : Word)
  /-- STA Absolute-X, 0x9D (R134). -/
  | staAbsX (hhll : Word)
  /-- STA Absolute-Y, 0x99 (R135). -/
  | staAbsY (hhll : Word)
  /-- STA Indirect-X, 0x81 (R136). -/
  | staIndX (zz : Byte)
  /-- STA Indirect-Y, 0x91 (R137). -/
  | staIndY (zz : Byte)
  /-- TAX, 0xAA (R150). -/
  | tax
  /-- TXS, 0x9A (R151). -/
  | txs
  /-- TSX, 0xBA (R152). -/
  | tsx
  /-- INX, 0xE8 (R153). -/
  | inx
  /-- PHA, 0x48 (R171). -/
  | pha
  /-- PLA, 0x68 (R172). -/
  | pla
  /-- PHP, 0x08 (R173). -/
  | php
  /-- PLP, 0x28 (R174). -/
  | plp
  /-- NOP, 0xEA (R190). -/
  | nop
  /-- An opcode byte with no row in the opcode table (R88). -/
  | unknown (op : Byte)
  deriving DecidableEq, Repr

end Sys2Proof
end

