-- ==== Sys2Proof/Decode.lean ====
section
/-! DEFINITION. The instruction decoder (spec/30_encoding.md R80-R91): the opcode table, decoding of a
byte list, the encoder, and the interface's `decodeTableWord`. -/

namespace Sys2Proof

/-- The word `hi:lo`, which is `hi * 256 + lo` (R6). -/
def wordOf (hi lo : Byte) : Word := BitVec.ofNat 16 (hi.toNat * 256 + lo.toNat)

/-- Bits 7:0 of a word. -/
def lowByte (w : Word) : Byte := BitVec.ofNat 8 w.toNat

/-- Bits 15:8 of a word. -/
def highByte (w : Word) : Byte := BitVec.ofNat 8 (w.toNat / 256)

/-- How many operand bytes a mode consumes (R86). -/
def Mode.width : Mode → Nat
  | .noneAddressing => 0
  | .immediate | .zeroPage | .zeroPageX | .zeroPageY | .indirectX | .indirectY => 1
  | .absolute | .absoluteX | .absoluteY => 2

/-- One row of the opcode table (R84, R85): mnemonic, mode, byte length, base cycle count, and the
handler, given as the instruction that the row's operand bytes make. The cycle count is metadata no
rule reads (R87), and its figures come from outside the source (R250). -/
structure OpcodeEntry where
  opcode : Byte
  mnemonic : Mnemonic
  mode : Mode
  length : Nat
  baseCycles : Nat
  pageCrossCycle : Bool
  instr : Byte → Byte → Instr

/-- The LDA rows of R84. -/
def ldaRows : List OpcodeEntry :=
  [⟨0xA9, .lda, .immediate, 2, 2, false, fun d _ => .ldaImm d⟩,
   ⟨0xA5, .lda, .zeroPage, 2, 3, false, fun d _ => .ldaZp d⟩,
   ⟨0xB5, .lda, .zeroPageX, 2, 4, false, fun d _ => .ldaZpX d⟩,
   ⟨0xAD, .lda, .absolute, 3, 4, false, fun l h => .ldaAbs (wordOf h l)⟩,
   ⟨0xBD, .lda, .absoluteX, 3, 4, true, fun l h => .ldaAbsX (wordOf h l)⟩,
   ⟨0xB9, .lda, .absoluteY, 3, 4, true, fun l h => .ldaAbsY (wordOf h l)⟩,
   ⟨0xA1, .lda, .indirectX, 2, 6, false, fun d _ => .ldaIndX d⟩,
   ⟨0xB1, .lda, .indirectY, 2, 5, true, fun d _ => .ldaIndY d⟩]

/-- The STA rows of R84. -/
def staRows : List OpcodeEntry :=
  [⟨0x85, .sta, .zeroPage, 2, 3, false, fun d _ => .staZp d⟩,
   ⟨0x95, .sta, .zeroPageX, 2, 4, false, fun d _ => .staZpX d⟩,
   ⟨0x8D, .sta, .absolute, 3, 4, false, fun l h => .staAbs (wordOf h l)⟩,
   ⟨0x9D, .sta, .absoluteX, 3, 5, false, fun l h => .staAbsX (wordOf h l)⟩,
   ⟨0x99, .sta, .absoluteY, 3, 5, false, fun l h => .staAbsY (wordOf h l)⟩,
   ⟨0x81, .sta, .indirectX, 2, 6, false, fun d _ => .staIndX d⟩,
   ⟨0x91, .sta, .indirectY, 2, 6, false, fun d _ => .staIndY d⟩]

/-- The rows of R84 without an operand. -/
def impliedRows : List OpcodeEntry :=
  [⟨0xAA, .tax, .noneAddressing, 1, 2, false, fun _ _ => .tax⟩,
   ⟨0x9A, .txs, .noneAddressing, 1, 2, false, fun _ _ => .txs⟩,
   ⟨0xBA, .tsx, .noneAddressing, 1, 2, false, fun _ _ => .tsx⟩,
   ⟨0xE8, .inx, .noneAddressing, 1, 2, false, fun _ _ => .inx⟩,
   ⟨0x48, .pha, .noneAddressing, 1, 3, false, fun _ _ => .pha⟩,
   ⟨0x68, .pla, .noneAddressing, 1, 4, false, fun _ _ => .pla⟩,
   ⟨0x08, .php, .noneAddressing, 1, 3, false, fun _ _ => .php⟩,
   ⟨0x28, .plp, .noneAddressing, 1, 4, false, fun _ _ => .plp⟩,
   ⟨0xEA, .nop, .noneAddressing, 1, 2, false, fun _ _ => .nop⟩]

/-- The opcode table: exactly 24 rows (R84), a constant of the model (R38). -/
def opcodeTable : List OpcodeEntry := ldaRows ++ staRows ++ impliedRows

/-- `decode(op)` of the instruction decoder (R85): the row whose opcode equals all 8 bits of `op`, or
none. -/
def lookup (op : Byte) : Option OpcodeEntry := opcodeTable.find? (fun e => e.opcode == op)

/-- The instruction whose opcode byte is `op`, read with the two bytes after it. A byte with no row is
an unknown opcode (R88), so this is total. A row uses only the operand bytes its mode consumes. -/
def decodeBytes (op b1 b2 : Byte) : Instr :=
  match lookup op with
  | some e => e.instr b1 b2
  | none => .unknown op

/-- Why a byte list holds no instruction at its front: it is too short. No byte value is refused
(R89). -/
inductive DecodeError where
  /-- The list is empty. -/
  | noOpcode
  /-- The list ends before the operand bytes that the row of `op` consumes. -/
  | missingOperand (op : Byte)
  deriving DecidableEq, Repr

/-- Take one instruction off the front of a byte list and return it with the bytes after it. The
length follows from the opcode byte alone (R86, R90). -/
def decode : List Byte → Except DecodeError (Instr × List Byte)
  | [] => .error .noOpcode
  | op :: rest =>
    match lookup op with
    | none => .ok (.unknown op, rest)
    | some e =>
      match e.mode.width, rest with
      | 0, rest => .ok (e.instr 0 0, rest)
      | 1, b1 :: rest => .ok (e.instr b1 0, rest)
      | 2, b1 :: b2 :: rest => .ok (e.instr b1 b2, rest)
      | _, _ => .error (.missingOperand op)

/-- The bytes of an instruction: opcode, then d8 (format B) or the low and the high byte of a16
(format W), from R80-R84 and the encoding line of each instruction's rule. -/
def encode : Instr → List Byte
  | .ldaImm d8 => [0xA9, d8]
  | .ldaZp zz => [0xA5, zz]
  | .ldaZpX zz => [0xB5, zz]
  | .ldaAbs w => [0xAD, lowByte w, highByte w]
  | .ldaAbsX w => [0xBD, lowByte w, highByte w]
  | .ldaAbsY w => [0xB9, lowByte w, highByte w]
  | .ldaIndX zz => [0xA1, zz]
  | .ldaIndY zz => [0xB1, zz]
  | .staZp zz => [0x85, zz]
  | .staZpX zz => [0x95, zz]
  | .staAbs w => [0x8D, lowByte w, highByte w]
  | .staAbsX w => [0x9D, lowByte w, highByte w]
  | .staAbsY w => [0x99, lowByte w, highByte w]
  | .staIndX zz => [0x81, zz]
  | .staIndY zz => [0x91, zz]
  | .tax => [0xAA]
  | .txs => [0x9A]
  | .tsx => [0xBA]
  | .inx => [0xE8]
  | .pha => [0x48]
  | .pla => [0x68]
  | .php => [0x08]
  | .plp => [0x28]
  | .nop => [0xEA]
  | .unknown op => [op]

/-- The addressing mode of an instruction; an unknown opcode has no operand bytes (R84, R88). -/
def Instr.mode : Instr → Mode
  | .ldaImm _ => .immediate
  | .ldaZp _ | .staZp _ => .zeroPage
  | .ldaZpX _ | .staZpX _ => .zeroPageX
  | .ldaAbs _ | .staAbs _ => .absolute
  | .ldaAbsX _ | .staAbsX _ => .absoluteX
  | .ldaAbsY _ | .staAbsY _ => .absoluteY
  | .ldaIndX _ | .staIndX _ => .indirectX
  | .ldaIndY _ | .staIndY _ => .indirectY
  | .tax | .txs | .tsx | .inx | .pha | .pla | .php | .plp | .nop | .unknown _ => .noneAddressing

/-- The length of an instruction in bytes, 1 + width(mode) (R86). -/
def Instr.length (i : Instr) : Nat := 1 + i.mode.width

/-- The three bytes, lowest address first, of a table word of `nbits` bits whose higher bits are 0:
the longest instruction has three bytes (R80). -/
def tableBytes (nbits w : Nat) : List Byte :=
  let v := w % 2 ^ nbits
  [BitVec.ofNat 8 v, BitVec.ofNat 8 (v / 256), BitVec.ofNat 8 (v / 65536)]

/-- The instruction the decoder reads from a table word (bit 0 is the least significant bit of the
opcode byte). -/
def decodeTableWord (nbits w : Nat) : Option Instr :=
  match decode (tableBytes nbits w) with
  | .ok (i, _) => some i
  | .error _ => none

end Sys2Proof
end

