-- ==== Sys2Proof/Config.lean ====
section
/-! DEFINITION. The implementation parameters of spec/00_scope.md R5. Every one is fixed by the spec.
There is no free value: 93_implementation_defined.md says that every opcode byte, operand value and
register value has one defined result. -/

namespace Sys2Proof.Config

/-- Number of bytes of the one memory array (R5, R50). -/
abbrev memorySize : Nat := 65536

/-- First address of the stack page; a stack slot is at this address plus SP (R5, R60). -/
def stackBase : Word := 0x0100

/-- Address of the low byte of the reset vector (R5, R65). -/
def resetVector : Word := 0xFFFC

/-- Where `load_program` puts the first byte (R5, R233). -/
def loadAddress : Word := 0x8000

/-- Longest program `load_program` takes, in bytes (R5, R206). -/
abbrev maxProgramLength : Nat := 0x8000

/-- The value of PC at which a run stops before fetching (R5, R240). -/
def sentinel : Word := 0xFFFF

/-- The value `reset` gives SP (R5, R232). -/
def resetSP : Byte := 0xFF

end Sys2Proof.Config
end

