-- ==== Sys2Proof/Machine/State.lean ====
section
/-! DEFINITION. The state of one machine as the spec gives it (spec/10_state.md, spec/20_memory.md R50),
the reasons a step can stop, and the state right after reset. -/

namespace Sys2Proof.Machine

/-- The 65536-byte array of R50 as a canonical list of (address, byte); see `Memory.wf` in
Machine/Memory.lean. -/
abbrev Memory := List Host.Cell

/-- The run state (R35). -/
inductive RunState where
  | reset | running | halted
  deriving DecidableEq, Repr

/-- One record of the diagnostic log: the address an unknown opcode byte was fetched from, and the
byte (R37). -/
structure DiagRecord where
  addr : Word
  op : Byte
  deriving DecidableEq, Repr

/-- Everything the spec gives the machine; R39 says that nothing else exists. -/
structure State where
  /-- Accumulator (R21). -/
  a : Byte
  /-- Index register X (R22). -/
  x : Byte
  /-- Index register Y (R23). -/
  y : Byte
  /-- Status byte P (R26). -/
  p : Byte
  /-- Stack pointer (R24). -/
  sp : Byte
  /-- Program counter (R25). -/
  pc : Word
  /-- Memory (R50). -/
  mem : Memory
  /-- Run state (R35). -/
  runState : RunState
  /-- Diagnostic log, oldest record first (R37). -/
  diag : List DiagRecord
  deriving DecidableEq, Repr

/-- Why a step answers no next state. The core itself raises no fault (R200). -/
inductive Fault where
  /-- Raised by `step` when the run state is not Running: no step is enabled there (R106, R238). A
  stuck state, safe: it adds no behaviour to the hardware's. -/
  | notRunning
  deriving DecidableEq, Repr

/-- Why an instruction has no meaning. No arm of `exec` answers one: every row is modelled. -/
inductive Refusal where
  /-- Raised by an arm of `exec` whose instruction has no meaning yet, with its mnemonic; safe. -/
  | notModelled (mnemonic : String)
  deriving DecidableEq, Repr

/-- The machine right after `new()` (R230) and `reset()` (R232): A, X and P zero, SP 0xFF, Y as new()
left it, PC the reset-vector word of a memory that is all zero, run state Reset, log empty. -/
def State.reset : State where
  a := 0x00
  x := 0x00
  y := 0x00
  p := 0x00
  sp := Config.resetSP
  pc := 0x0000
  mem := []
  runState := .reset
  diag := []

end Sys2Proof.Machine
end

