-- ==== Sys2Proof/Machine/Memory.lean ====
section
/-! DEFINITION. The memory array as data: reading and writing one cell of the canonical list, and the
canonical form itself (spec/20_memory.md R50-R52, R55). -/

namespace Sys2Proof.Machine

/-- What an address the list does not name reads as: `new()` zeroes the whole memory (R230). -/
def unlistedByte : Byte := 0x00

/-- The byte at key `k`. -/
def Memory.get : Memory → Nat → Byte
  | [], _ => unlistedByte
  | (j, v) :: rest, k => if j = k then v else Memory.get rest k

/-- Put `v` in front of `rest` at key `k`, unless that is what an unlisted address reads as. -/
def Memory.cons (k : Nat) (v : Byte) (rest : Memory) : Memory :=
  if v = unlistedByte then rest else (k, v) :: rest

/-- Set the byte at key `k`, keeping the keys rising and no entry equal to `unlistedByte`. -/
def Memory.put : Memory → Nat → Byte → Memory
  | [], k, v => Memory.cons k v []
  | (j, u) :: rest, k, v =>
    if k < j then Memory.cons k v ((j, u) :: rest)
    else if k = j then Memory.cons k v rest
    else (j, u) :: Memory.put rest k v

/-- The canonical form: addresses strictly rising and inside the array, no entry equal to what an
unlisted address reads as. Two memories in this form that read alike everywhere are equal. -/
abbrev Memory.wf (m : Memory) : Prop :=
  m.Pairwise (fun c d => c.1 < d.1) ∧ ∀ c ∈ m, c.1 < Config.memorySize ∧ c.2 ≠ unlistedByte

end Sys2Proof.Machine
end

