-- ==== Sys2Proof/Machine/Ops.lean ====
section
/-! DEFINITION. The named operations on the state: register writes, the memory bus (spec/20_memory.md
R51-R54), the stack engine (R60-R63), `halt` and `emit Diag` (spec/10_state.md R36, R37).
There is no operation that takes an exception and none that returns from one: spec/60_exceptions.md
R200, R204 and R205 say that the core has neither. -/

namespace Sys2Proof.Machine

/-- `zext_16` (R6). -/
def zext16 (b : Byte) : Word := b.setWidth 16

namespace State

/-- `x[A] <- v` (R7, R21). -/
def setA (s : State) (v : Byte) : State := { s with a := v }

/-- `x[X] <- v` (R7, R22). -/
def setX (s : State) (v : Byte) : State := { s with x := v }

/-- `x[Y] <- v` (R7, R23): only the host does this. -/
def setY (s : State) (v : Byte) : State := { s with y := v }

/-- `x[P] <- v`: all eight bits are stored (R26, R28, R29). -/
def setP (s : State) (v : Byte) : State := { s with p := v }

/-- `x[SP] <- v` (R7, R24). -/
def setSP (s : State) (v : Byte) : State := { s with sp := v }

/-- `pc <- v` (R7, R25). -/
def setPC (s : State) (v : Word) : State := { s with pc := v }

/-- Set the run state (R35). -/
def setRunState (s : State) (r : RunState) : State := { s with runState := r }

/-- Advance pc by `n` bytes, modulo 65536 (R25). -/
def advancePC (s : State) (n : Nat) : State := s.setPC (s.pc + BitVec.ofNat 16 n)

/-- `MemRead(addr, 1)` (R51). -/
def readByte (s : State) (addr : Word) : Byte := s.mem.get addr.toNat

/-- `MemWrite(addr, 1, v)` (R52). -/
def writeByte (s : State) (addr : Word) (v : Byte) : State :=
  { s with mem := s.mem.put addr.toNat v }

/-- `MemRead(addr, 2)`: low byte at `addr`, high byte at `wrap16(addr + 1)` (R53). -/
def readWord (s : State) (addr : Word) : Word :=
  wordOf (s.readByte (addr + 1)) (s.readByte addr)

/-- `MemWrite(addr, 2, w)`: the low byte first, then the high byte (R54). -/
def writeWord (s : State) (addr : Word) (w : Word) : State :=
  (s.writeByte addr (lowByte w)).writeByte (addr + 1) (highByte w)

/-- The word a zero-page pointer holds: two byte reads, the second at `wrap8(ptr + 1)`, so 0xFF is
followed by 0x00 (R103, R104). -/
def readPointer (s : State) (ptr : Byte) : Word :=
  wordOf (s.readByte (zext16 (ptr + 1))) (s.readByte (zext16 ptr))

end State

/-- The stack slot a stack pointer designates, `0x0100 + SP` (R24, R60). -/
def stackAddress (sp : Byte) : Word := Config.stackBase + zext16 sp

namespace State

/-- `Push(v)`: write at the slot, then decrement SP modulo 256 (R60). -/
def push (s : State) (v : Byte) : State :=
  (s.writeByte (stackAddress s.sp) v).setSP (s.sp - 1)

/-- `Pop()`: increment SP modulo 256, then read at the new slot (R61). -/
def pop (s : State) : Byte × State :=
  let t := s.setSP (s.sp + 1)
  (t.readByte (stackAddress t.sp), t)

/-- `emit Diag(addr, op)`: append one record to the log (R37). -/
def emitDiag (s : State) (addr : Word) (op : Byte) : State :=
  { s with diag := s.diag ++ [⟨addr, op⟩] }

/-- `halt`: the run state becomes Halted and nothing else changes (R36). -/
def halt (s : State) : State := s.setRunState .halted

/-- The sentinel check at the start of a step (R240). -/
def atSentinel (s : State) : Bool := s.pc == Config.sentinel

/-- The instruction whose bytes stand at pc, with its operand bytes at `wrap16(pc + 1)` and
`wrap16(pc + 2)` (R80, R106, R113). Reading bytes that the instruction does not have changes nothing
(R50). -/
def fetch (s : State) : Instr :=
  decodeBytes (s.readByte s.pc) (s.readByte (s.pc + 1)) (s.readByte (s.pc + 2))

/-- Write bytes at consecutive addresses, modulo 65536. -/
def placeBytes (s : State) (addr : Word) : List Byte → State
  | [] => s
  | b :: rest => (s.writeByte addr b).placeBytes (addr + 1) rest

/-- Where `withFetchWord` puts an instruction: at pc, or at the load address where pc is the sentinel,
at which no instruction is ever fetched (R240). -/
def fetchAddress (s : State) : Word :=
  if s.atSentinel then Config.loadAddress else s.pc

end State

end Sys2Proof.Machine
end

