-- ==== Sys2Proof/Machine/Flags.lean ====
section
/-! DEFINITION. The flag register bitfield (spec/10_state.md R26-R33): the eight flags, their masks,
`SetFlag`, `GetFlag` and `ZN`. No admitted instruction computes any other flag (R33, R154). -/

namespace Sys2Proof.Machine

/-- The eight flags of P, in bit order (R26). -/
inductive Flag where
  | C | Z | I | D | B0 | B1 | V | N
  deriving DecidableEq, Repr

/-- The bit of P that a flag is (R26). -/
def Flag.bit : Flag → Nat
  | .C => 0
  | .Z => 1
  | .I => 2
  | .D => 3
  | .B0 => 4
  | .B1 => 5
  | .V => 6
  | .N => 7

/-- The flag-to-bitmask table (R30). -/
def Flag.mask : Flag → Byte
  | .C => 0x01
  | .Z => 0x02
  | .I => 0x04
  | .D => 0x08
  | .B0 => 0x10
  | .B1 => 0x20
  | .V => 0x40
  | .N => 0x80

/-- `SetFlag(f, b)` on a status byte: clear the flag's bit, then set it if `b` (R31). -/
def setFlag (f : Flag) (b : Bool) (p : Byte) : Byte :=
  (p &&& ~~~f.mask) ||| (if b then f.mask else 0x00)

/-- `GetFlag(f)` on a status byte (R31). -/
def getFlag (f : Flag) (p : Byte) : Bool := (p &&& f.mask) != 0x00

/-- `ZN(v)` on a status byte: Z says that `v` is zero and N is bit 7 of `v`; nothing else is written
(R32). -/
def zeroNegative (v : Byte) (p : Byte) : Byte :=
  setFlag .N (v.getLsbD 7) (setFlag .Z (v == 0x00) p)

/-- `ZN(v)` on the machine's status byte (R32). -/
def State.updateZN (s : State) (v : Byte) : State := s.setP (zeroNegative v s.p)

end Sys2Proof.Machine
end

