-- ==== Sys2Proof/Machine/Operands.lean ====
section
/-! DEFINITION. Effective addresses of the operand forms (spec/30_encoding.md R94-R104). Every sum wraps
at the width its rule gives: 8 bits inside page 0, 16 bits elsewhere. -/

namespace Sys2Proof.Machine

/-- The effective address of an operand, in a state whose pc is the address of the first operand byte
(R95). Immediate is that address itself (R96). -/
def effectiveAddress (o : Operand) (s : State) : Word :=
  match o with
  | .immediate _ => s.pc
  | .zeroPage zz => zext16 zz
  | .zeroPageX zz => zext16 (zz + s.x)
  | .zeroPageY zz => zext16 (zz + s.y)
  | .absolute hhll => hhll
  | .absoluteX hhll => hhll + zext16 s.x
  | .absoluteY hhll => hhll + zext16 s.y
  | .indirectX zz => s.readPointer (zz + s.x)
  | .indirectY zz => s.readPointer zz + zext16 s.y

/-- `Resolve(mode)` for an instruction whose operand is decoded: the effective address, and the state
with pc past the operand bytes (R95, R108). -/
def resolve (o : Operand) (s : State) : Word × State :=
  (effectiveAddress o s, s.advancePC o.mode.width)

/-- The byte a load reads, given the effective address: the operand byte itself in Immediate (R82,
R121), the byte in memory otherwise (R120). -/
def operandByte (o : Operand) (ea : Word) (s : State) : Byte :=
  match o with
  | .immediate d8 => d8
  | .zeroPage _ | .zeroPageX _ | .zeroPageY _ | .absolute _ | .absoluteX _ | .absoluteY _
  | .indirectX _ | .indirectY _ => s.readByte ea

end Sys2Proof.Machine
end

