-- ==== Sys2Proof/Machine/LoadStore.lean ====
section
/-! DEFINITION. LDA in eight modes and STA in seven (spec/40_load_store.md R120-R137). A meaning starts
with pc at the first operand byte, after the opcode fetch (R8, R106). -/

namespace Sys2Proof.Machine

/-- The LDA family: resolve, read the byte, store it into A, `ZN` of it (R120). -/
def loadA (o : Operand) (s : State) : State :=
  let (ea, t) := resolve o s
  let v := operandByte o ea t
  (t.setA v).updateZN v

/-- The STA family: resolve, write A at the effective address, no flag (R130). -/
def storeA (o : Operand) (s : State) : State :=
  let (ea, t) := resolve o s
  t.writeByte ea t.a

/-- LDA Immediate (R121). -/
def execLdaImm (d8 : Byte) (s : State) : Host.Outcome State Fault Refusal :=
  .next (loadA (.immediate d8) s)

/-- LDA ZeroPage (R122). -/
def execLdaZp (zz : Byte) (s : State) : Host.Outcome State Fault Refusal :=
  .next (loadA (.zeroPage zz) s)

/-- LDA ZeroPage-X (R123). -/
def execLdaZpX (zz : Byte) (s : State) : Host.Outcome State Fault Refusal :=
  .next (loadA (.zeroPageX zz) s)

/-- LDA Absolute (R124). -/
def execLdaAbs (hhll : Word) (s : State) : Host.Outcome State Fault Refusal :=
  .next (loadA (.absolute hhll) s)

/-- LDA Absolute-X (R125). -/
def execLdaAbsX (hhll : Word) (s : State) : Host.Outcome State Fault Refusal :=
  .next (loadA (.absoluteX hhll) s)

/-- LDA Absolute-Y (R126). -/
def execLdaAbsY (hhll : Word) (s : State) : Host.Outcome State Fault Refusal :=
  .next (loadA (.absoluteY hhll) s)

/-- LDA Indirect-X (R127). -/
def execLdaIndX (zz : Byte) (s : State) : Host.Outcome State Fault Refusal :=
  .next (loadA (.indirectX zz) s)

/-- LDA Indirect-Y (R128). -/
def execLdaIndY (zz : Byte) (s : State) : Host.Outcome State Fault Refusal :=
  .next (loadA (.indirectY zz) s)

/-- STA ZeroPage (R131). -/
def execStaZp (zz : Byte) (s : State) : Host.Outcome State Fault Refusal :=
  .next (storeA (.zeroPage zz) s)

/-- STA ZeroPage-X (R132). -/
def execStaZpX (zz : Byte) (s : State) : Host.Outcome State Fault Refusal :=
  .next (storeA (.zeroPageX zz) s)

/-- STA Absolute (R133). -/
def execStaAbs (hhll : Word) (s : State) : Host.Outcome State Fault Refusal :=
  .next (storeA (.absolute hhll) s)

/-- STA Absolute-X (R134). -/
def execStaAbsX (hhll : Word) (s : State) : Host.Outcome State Fault Refusal :=
  .next (storeA (.absoluteX hhll) s)

/-- STA Absolute-Y (R135). -/
def execStaAbsY (hhll : Word) (s : State) : Host.Outcome State Fault Refusal :=
  .next (storeA (.absoluteY hhll) s)

/-- STA Indirect-X (R136). -/
def execStaIndX (zz : Byte) (s : State) : Host.Outcome State Fault Refusal :=
  .next (storeA (.indirectX zz) s)

/-- STA Indirect-Y (R137). -/
def execStaIndY (zz : Byte) (s : State) : Host.Outcome State Fault Refusal :=
  .next (storeA (.indirectY zz) s)

end Sys2Proof.Machine
end

