-- ==== Sys2Proof/Machine/Nop.lean ====
section
/-! DEFINITION. NOP (spec/43_nop.md R190) and the unknown opcode (spec/30_encoding.md R88). -/

namespace Sys2Proof.Machine

/-- NOP: no effect beyond the opcode fetch's advance of pc (R190). -/
def execNop (s : State) : Host.Outcome State Fault Refusal := .next s

/-- An unknown opcode: one record with the address the byte was fetched from, which is one below pc
after the fetch, and the byte; nothing else changes (R88, R191, R201). -/
def execUnknown (op : Byte) (s : State) : Host.Outcome State Fault Refusal :=
  .next (s.emitDiag (s.pc - 1) op)

end Sys2Proof.Machine
end

