-- ==== Sys2Proof/Machine/Stack.lean ====
section
/-! DEFINITION. PHA, PLA, PHP and PLP (spec/42_stack.md R170-R175), over the stack engine's push and pop. -/

namespace Sys2Proof.Machine

/-- PHA: push A, then `ZN` of A (R171; the document's flag effect, 90_conflicts.md C1 and C2). -/
def execPha (s : State) : Host.Outcome State Fault Refusal :=
  .next ((s.push s.a).updateZN s.a)

/-- PLA: pop into A, then `ZN` of the popped byte (R172). -/
def execPla (s : State) : Host.Outcome State Fault Refusal :=
  let (v, t) := s.pop
  .next ((t.setA v).updateZN v)

/-- PHP: push P, all eight bits as stored (R173). -/
def execPhp (s : State) : Host.Outcome State Fault Refusal :=
  .next (s.push s.p)

/-- PLP: the popped byte replaces all eight bits of P, with no flag derivation (R174). -/
def execPlp (s : State) : Host.Outcome State Fault Refusal :=
  let (v, t) := s.pop
  .next (t.setP v)

end Sys2Proof.Machine
end

