-- ==== Sys2Proof/Machine/Transfer.lean ====
section
/-! DEFINITION. TAX, TXS, TSX and INX (spec/41_transfer_increment.md R150-R154). One byte each: no operand,
no further advance of pc (R105, R108). -/

namespace Sys2Proof.Machine

/-- TAX: X becomes A, then `ZN` of the new X (R150). -/
def execTax (s : State) : Host.Outcome State Fault Refusal :=
  .next ((s.setX s.a).updateZN s.a)

/-- TXS: SP becomes X; no flag is written (R151). -/
def execTxs (s : State) : Host.Outcome State Fault Refusal :=
  .next (s.setSP s.x)

/-- TSX: X becomes SP; no flag is written (R152, 90_conflicts.md C1 and C2). -/
def execTsx (s : State) : Host.Outcome State Fault Refusal :=
  .next (s.setX s.sp)

/-- INX: X becomes X + 1 modulo 256, then `ZN` of the new X; C and V are not written (R153). -/
def execInx (s : State) : Host.Outcome State Fault Refusal :=
  let v := s.x + 1
  .next ((s.setX v).updateZN v)

end Sys2Proof.Machine
end

