-- ==== Sys2Proof/Machine/Dispatch.lean ====
section
/-! DEFINITION. Dispatch from an instruction to its meaning, one arm per constructor (spec/30_encoding.md
R107). The state's pc is the address of the first operand byte (R8). -/

namespace Sys2Proof.Machine

def exec (i : Instr) (s : State) : Host.Outcome State Fault Refusal :=
  match i with
  | .ldaImm d8 => Sys2Proof.Machine.execLdaImm d8 s
  | .ldaZp zz => Sys2Proof.Machine.execLdaZp zz s
  | .ldaZpX zz => Sys2Proof.Machine.execLdaZpX zz s
  | .ldaAbs hhll => Sys2Proof.Machine.execLdaAbs hhll s
  | .ldaAbsX hhll => Sys2Proof.Machine.execLdaAbsX hhll s
  | .ldaAbsY hhll => Sys2Proof.Machine.execLdaAbsY hhll s
  | .ldaIndX zz => Sys2Proof.Machine.execLdaIndX zz s
  | .ldaIndY zz => Sys2Proof.Machine.execLdaIndY zz s
  | .staZp zz => Sys2Proof.Machine.execStaZp zz s
  | .staZpX zz => Sys2Proof.Machine.execStaZpX zz s
  | .staAbs hhll => Sys2Proof.Machine.execStaAbs hhll s
  | .staAbsX hhll => Sys2Proof.Machine.execStaAbsX hhll s
  | .staAbsY hhll => Sys2Proof.Machine.execStaAbsY hhll s
  | .staIndX zz => Sys2Proof.Machine.execStaIndX zz s
  | .staIndY zz => Sys2Proof.Machine.execStaIndY zz s
  | .tax => Sys2Proof.Machine.execTax s
  | .txs => Sys2Proof.Machine.execTxs s
  | .tsx => Sys2Proof.Machine.execTsx s
  | .inx => Sys2Proof.Machine.execInx s
  | .pha => Sys2Proof.Machine.execPha s
  | .pla => Sys2Proof.Machine.execPla s
  | .php => Sys2Proof.Machine.execPhp s
  | .plp => Sys2Proof.Machine.execPlp s
  | .nop => Sys2Proof.Machine.execNop s
  | .unknown op => Sys2Proof.Machine.execUnknown op s

end Sys2Proof.Machine
end

