-- ==== Sys2Proof/Machine/Cycle.lean ====
section
/-! DEFINITION. The instruction cycle of a Running machine (spec/30_encoding.md R106,
spec/70_reset_and_hazards.md R240, R241). -/

namespace Sys2Proof.Machine

/-- Check the sentinel before any fetch (R240); otherwise fetch, advance pc by 1 and execute the
instruction (R106). The sentinel is not checked again inside the cycle (R241). -/
def cycle (s : State) : Host.Outcome State Fault Refusal :=
  if s.atSentinel then .next s.halt else exec s.fetch (s.advancePC 1)

end Sys2Proof.Machine
end

