-- ==== Sys2Proof/Machine/Step.lean ====
section
/-! DEFINITION. One step of the machine (spec/30_encoding.md R106; spec/70_reset_and_hazards.md R238), and
how the interface places an instruction for the next step. -/

namespace Sys2Proof.Machine

/-- A step is enabled only in Running (R106, R238); there it is one instruction cycle. -/
def step (s : State) : Host.Outcome State Fault Refusal :=
  match s.runState with
  | .reset => .fault .notRunning
  | .halted => .fault .notRunning
  | .running => cycle s

/-- The state whose next step fetches and runs the table word `w` of `nbits` bits: its three bytes
stand at the fetch address, pc is that address, and a run has begun, since only a Running machine
takes a step (R238, R239). -/
def State.withFetchWord (s : State) (nbits w : Nat) : State :=
  ((s.placeBytes s.fetchAddress (tableBytes nbits w)).setPC s.fetchAddress).setRunState .running

end Sys2Proof.Machine
end

