-- ==== Sys2Proof/Machine/HostCommands.lean ====
section
/-! DEFINITION. The host's commands and its access to the state (spec/70_reset_and_hazards.md R230-R239,
spec/10_state.md R41, spec/60_exceptions.md R206, R207): everything that changes the state outside a
step. -/

namespace Sys2Proof.Machine

/-- `new()`: registers zero, PC 0x0000, memory zero, run state Reset, log empty (R230). -/
def State.new : State where
  a := 0x00
  x := 0x00
  y := 0x00
  p := 0x00
  sp := 0x00
  pc := 0x0000
  mem := []
  runState := .reset
  diag := []

/-- `reset()`: A, X and P zero, SP 0xFF, PC from the reset vector, run state Reset; Y, memory and the
log are kept (R232). -/
def State.resetCommand (s : State) : State :=
  (((((s.setA 0x00).setX 0x00).setP 0x00).setSP Config.resetSP).setPC
    (s.readWord Config.resetVector)).setRunState .reset

/-- An error of a host command, reported to the host; the state stays what it was before the command. -/
inductive HostError where
  /-- `load_program` was given more than 0x8000 bytes (R206). -/
  | capacityError
  /-- A command was issued while a run is in progress, when the host can do nothing to the block (R41,
  R110, R216). The spec has no such event; safe. -/
  | runInProgress
  deriving DecidableEq, Repr

/-- `load_program(bytes)`: the bytes from 0x8000, then pc, then the reset vector (R233); an oversized
program raises CapacityError and changes nothing (R206). -/
def State.loadProgram (s : State) (bytes : List Byte) : Except HostError State :=
  if Config.maxProgramLength < bytes.length then .error .capacityError
  else .ok (((s.placeBytes Config.loadAddress bytes).setPC Config.loadAddress).writeWord
    Config.resetVector Config.loadAddress)

/-- The start of `run()`: the run state becomes Running; pc and everything else is kept (R239). -/
def State.beginRun (s : State) : State := s.setRunState .running

/-- The loop of `run()` for at most `fuel` steps (R239): the state in which the run state is no longer
Running, if that is reached. -/
def State.runLoop : Nat → State → Option State
  | 0, s => if s.runState = .running then none else some s
  | fuel + 1, s =>
    if s.runState = .running then
      match step s with
      | .next t => State.runLoop fuel t
      | .fault _ => none
      | .refused _ => none
    else some s

/-- `run()` called in `s` returns to the host and leaves `t` (R239). A run may also never return
(R242). -/
def State.RunReturns (s t : State) : Prop := ∃ fuel, State.runLoop fuel s.beginRun = some t

/-- What the host can do between runs: the four commands (R230-R239) and its writes (R41). Its reads
are the fields of `State` and `State.readByte`. -/
inductive HostCommand where
  /-- Construct an instance, in place of the one there was (R230, R231). -/
  | new
  | loadProgram (bytes : List Byte)
  | reset
  /-- Begin a run; `step` then carries it on (R239). -/
  | run
  | writeA (v : Byte)
  | writeX (v : Byte)
  | writeY (v : Byte)
  | writeP (v : Byte)
  | writeSP (v : Byte)
  | writePC (v : Word)
  | writeMemory (addr : Word) (v : Byte)
  deriving DecidableEq, Repr

/-- One host command. None overlaps a run (R41, R110). -/
def State.hostCommand (s : State) (c : HostCommand) : Except HostError State :=
  if s.runState = .running then .error .runInProgress
  else
    match c with
    | .new => .ok State.new
    | .loadProgram bytes => s.loadProgram bytes
    | .reset => .ok s.resetCommand
    | .run => .ok s.beginRun
    | .writeA v => .ok (s.setA v)
    | .writeX v => .ok (s.setX v)
    | .writeY v => .ok (s.setY v)
    | .writeP v => .ok (s.setP v)
    | .writeSP v => .ok (s.setSP v)
    | .writePC v => .ok (s.setPC v)
    | .writeMemory addr v => .ok (s.writeByte addr v)

/-- The boot sequence of R235 up to `run()`, with
no presets: new, load_program, reset. -/
def bootProgram (bytes : List Byte) : Except HostError State :=
  match State.new.loadProgram bytes with
  | .ok s => .ok s.resetCommand
  | .error e => .error e

end Sys2Proof.Machine
end

