-- ==== Sys2Proof/Machine/Pseudocode.lean ====
section
/-! DEFINITION. The instruction cycle as the spec's pseudocode writes it: a resolver that reads operand
bytes at pc (spec/30_encoding.md R95-R105), one execute phase per mnemonic driven by the opcode table's
row, and `Step()` (R106). It reads no decoded operand. `step` is stated to be equal to it. -/

namespace Sys2Proof.Machine

/-- `resolve(mode, pc, x, y) -> (ea, new_pc)`, a function of its arguments and of memory, which it only
reads (R95-R105). ZeroPage-Y is defined although no row uses it (R93, R99). -/
def resolver (mode : Mode) (pc : Word) (x y : Byte) (m : Memory) : Word × Word :=
  let read := fun (addr : Word) => m.get addr.toNat
  let operand := read pc
  let pointer := fun (ptr : Byte) => wordOf (read (zext16 (ptr + 1))) (read (zext16 ptr))
  let word := wordOf (read (pc + 1)) operand
  match mode with
  | .immediate => (pc, pc + 1)
  | .zeroPage => (zext16 operand, pc + 1)
  | .zeroPageX => (zext16 (operand + x), pc + 1)
  | .zeroPageY => (zext16 (operand + y), pc + 1)
  | .absolute => (word, pc + 2)
  | .absoluteX => (word + zext16 x, pc + 2)
  | .absoluteY => (word + zext16 y, pc + 2)
  | .indirectX => (pointer (operand + x), pc + 1)
  | .indirectY => (pointer operand + zext16 y, pc + 1)
  | .noneAddressing => (pc, pc)

/-- `Execute_e()`: the pseudocode of the rule that the row names, with `Resolve(mode)` writing pc
(R95, R120, R130, R150-R153, R171-R174, R190). -/
def executeEntry (e : OpcodeEntry) (s : State) : State :=
  let (ea, newPC) := resolver e.mode s.pc s.x s.y s.mem
  let t := s.setPC newPC
  match e.mnemonic with
  | .lda => (t.setA (t.readByte ea)).updateZN (t.readByte ea)
  | .sta => t.writeByte ea t.a
  | .tax => let u := t.setX t.a; u.updateZN u.x
  | .txs => t.setSP t.x
  | .tsx => t.setX t.sp
  | .inx => let u := t.setX (t.x + 1); u.updateZN u.x
  | .pha => let u := t.push t.a; u.updateZN u.a
  | .pla => let (v, u) := t.pop; (u.setA v).updateZN v
  | .php => t.push t.p
  | .plp => let (v, u) := t.pop; u.setP v
  | .nop => t

/-- `Step()` in run state Running, beginning with the sentinel check (R106, R240). -/
def pseudocodeStep (s : State) : State :=
  if s.pc = Config.sentinel then s.halt
  else
    let a := s.pc
    let op := s.readByte a
    let t := s.setPC (a + 1)
    match lookup op with
    | none => t.emitDiag a op
    | some e => executeEntry e t

end Sys2Proof.Machine
end

