-- ==== Sys2Proof/WellFormed.lean ====
section
/-! DEFINITION. Which terms of `Instr` stand for an instruction of the machine. Every operand field has
exactly the width of its encoding field, so the one check is that an unknown opcode has no row in the
opcode table (spec/30_encoding.md R88, R89). -/

namespace Sys2Proof

/-- `i` is an instruction some byte sequence encodes. -/
def Instr.wf : Instr → Bool
  | .unknown op => (lookup op).isNone
  | .ldaImm _ | .ldaZp _ | .ldaZpX _ | .ldaAbs _ | .ldaAbsX _ | .ldaAbsY _ | .ldaIndX _ | .ldaIndY _
  | .staZp _ | .staZpX _ | .staAbs _ | .staAbsX _ | .staAbsY _ | .staIndX _ | .staIndY _
  | .tax | .txs | .tsx | .inx | .pha | .pla | .php | .plp | .nop => true

end Sys2Proof
end

