-- ==== Sys2Proof/Safety.lean ====
section
/-! DEFINITION. The terms in which claims speak: which instruction may write what, what an instruction
stores, the invariant of the machine, the states a host can bring about, and a safe run. -/

namespace Sys2Proof

/-- The LDA instructions. -/
def Instr.isLoad : Instr → Bool
  | .ldaImm _ | .ldaZp _ | .ldaZpX _ | .ldaAbs _ | .ldaAbsX _ | .ldaAbsY _ | .ldaIndX _ | .ldaIndY _ =>
    true
  | .staZp _ | .staZpX _ | .staAbs _ | .staAbsX _ | .staAbsY _ | .staIndX _ | .staIndY _
  | .tax | .txs | .tsx | .inx | .pha | .pla | .php | .plp | .nop | .unknown _ => false

/-- The instructions that write A: LDA and PLA (R21). -/
def Instr.writesA (i : Instr) : Bool := i.isLoad || i == .pla

/-- The instructions that write X: TAX, TSX and INX (R22). -/
def Instr.writesX (i : Instr) : Bool := i == .tax || i == .tsx || i == .inx

/-- The instructions that write SP: TXS and the four stack instructions (R24). -/
def Instr.writesSP (i : Instr) : Bool :=
  i == .txs || i == .pha || i == .pla || i == .php || i == .plp

/-- The instructions that apply `ZN`: LDA, TAX, INX, PHA and PLA (R33). -/
def Instr.appliesZN (i : Instr) : Bool :=
  i.isLoad || i == .tax || i == .inx || i == .pha || i == .pla

namespace Machine

/-- The flags an instruction writes: all eight for PLP, Z and N where `ZN` is applied (R26, R33). -/
def writesFlag (i : Instr) (f : Flag) : Bool :=
  i == .plp || (i.appliesZN && (f == .Z || f == .N))

/-- The address an instruction stores to and the byte it stores there, in the state its meaning starts
from: the effective address and A for STA (R130), the stack slot and A or P for PHA and PHP (R171,
R173); none for the other instructions (R71). -/
def storeOf (i : Instr) (s : State) : Option (Word × Byte) :=
  match i with
  | .staZp zz => some (effectiveAddress (.zeroPage zz) s, s.a)
  | .staZpX zz => some (effectiveAddress (.zeroPageX zz) s, s.a)
  | .staAbs hhll => some (effectiveAddress (.absolute hhll) s, s.a)
  | .staAbsX hhll => some (effectiveAddress (.absoluteX hhll) s, s.a)
  | .staAbsY hhll => some (effectiveAddress (.absoluteY hhll) s, s.a)
  | .staIndX zz => some (effectiveAddress (.indirectX zz) s, s.a)
  | .staIndY zz => some (effectiveAddress (.indirectY zz) s, s.a)
  | .pha => some (stackAddress s.sp, s.a)
  | .php => some (stackAddress s.sp, s.p)
  | .ldaImm _ | .ldaZp _ | .ldaZpX _ | .ldaAbs _ | .ldaAbsX _ | .ldaAbsY _ | .ldaIndX _ | .ldaIndY _
  | .tax | .txs | .tsx | .inx | .pla | .plp | .nop | .unknown _ => none

/-- Memory of `t` is memory of `s` with the one byte `v` at `ea`. -/
def Stored (s t : State) (ea : Word) (v : Byte) : Prop :=
  t.readByte ea = v ∧ ∀ b, b ≠ ea → t.readByte b = s.readByte b

/-- The status byte `q` is `p` with Z and N taken from `v` and the six other flags kept (R32). -/
def ZNFrom (v p q : Byte) : Prop :=
  ∀ f, getFlag f q = if f = .N then v.getLsbD 7 else if f = .Z then v == 0x00 else getFlag f p

/-- `i`, executed in `s`, answers the state in which A is `v`, Z and N are taken from `v`, pc is past
`n` operand bytes, and nothing else has changed. -/
def Loads (i : Instr) (s : State) (v : Byte) (n : Nat) : Prop :=
  ∃ q, ZNFrom v s.p q ∧
    exec i s = .next { s with a := v, p := q, pc := s.pc + BitVec.ofNat 16 n }

/-- `i`, executed in `s`, answers a state in which the byte at `ea` is A, pc is past `n` operand bytes,
and nothing else has changed. -/
def StoresA (i : Instr) (s : State) (ea : Word) (n : Nat) : Prop :=
  ∃ m, exec i s = .next { s with mem := m, pc := s.pc + BitVec.ofNat 16 n } ∧
    Stored s { s with mem := m } ea s.a

/-- The invariant of the machine: memory is in canonical form, and every diagnostic record names an
unknown opcode (R88) and an address other than the sentinel, from which no opcode is fetched (R240). -/
structure State.Inv (s : State) : Prop where
  canonical : Memory.wf s.mem
  diag : ∀ d ∈ s.diag, lookup d.op = none ∧ d.addr ≠ Config.sentinel

/-- The states that host commands and steps bring about from `new()` (R110, R237, R238). -/
inductive Reachable : State → Prop
  | new : Reachable State.new
  | command {s t : State} (c : HostCommand) : Reachable s → s.hostCommand c = .ok t → Reachable t
  | step {s t : State} : Reachable s → step s = .next t → Reachable t

/-- A safe run: in every state that steps lead to from `s`, a Running machine has a next state, so a
run ends at the sentinel or not at all. -/
def SafeRun (s : State) : Prop :=
  ∀ n t, Host.Core.run core n s = .next t → t.runState = .running → ∃ u, step t = .next u

end Machine

end Sys2Proof
end

