-- ==== Sys2Proof/Certificates/Slice0/Obligations.lean ====
section
/-! DEFINITION. The statements for the provers, one `def Obligations.<Name> : Prop` each, with the rule of
spec/ it formalises. `exec` starts with pc at the first operand byte (R8), so a statement about `exec`
speaks of the execute phase, and one about `step` of a whole step. -/

open Sys2Proof
open Sys2Proof.Machine

/-! ## Encoding and decoding -/

/-- Decoding the bytes of a well-formed instruction, with any bytes after them, gives it back with every
operand, and leaves the bytes after it (R80-R86, R88). -/
def Obligations.DecodeInvertsEncode : Prop :=
  ∀ (i : Instr) (rest : List Byte), i.wf = true → decode (encode i ++ rest) = .ok (i, rest)

/-- What the decoder reads is well-formed, and its bytes are exactly the bytes that were consumed: no
bit of an encoding is dropped (R80-R85, R89). -/
def Obligations.EncodeInvertsDecode : Prop :=
  ∀ (bs rest : List Byte) (i : Instr), decode bs = .ok (i, rest) →
    i.wf = true ∧ encode i ++ rest = bs

/-- One word or two of every family, written out from R84 and the instruction rules' encodings. -/
def Obligations.SampleWordsDecode : Prop :=
  decode [0xA9, 0x80] = .ok (.ldaImm 0x80, []) ∧
  decode [0xBD, 0xF0, 0x12] = .ok (.ldaAbsX 0x12F0, []) ∧
  decode [0x91, 0x00] = .ok (.staIndY 0x00, []) ∧
  decode [0x8D, 0xFC, 0xFF] = .ok (.staAbs 0xFFFC, []) ∧
  decode [0x9A] = .ok (.txs, []) ∧
  decode [0xE8] = .ok (.inx, []) ∧
  decode [0x68] = .ok (.pla, []) ∧
  decode [0x08] = .ok (.php, []) ∧
  decode [0xEA] = .ok (.nop, []) ∧
  decode [0x89, 0x10] = .ok (.unknown 0x89, [0x10])

/-- The table has 24 rows, no two with the same opcode, and the other 232 byte values have no row (R84,
R85, R88). -/
def Obligations.OpcodeTableIsUnambiguous : Prop :=
  opcodeTable.length = 24 ∧ (opcodeTable.map (·.opcode)).Nodup ∧
  ((List.range 256).filter fun n => (lookup (BitVec.ofNat 8 n)).isNone).length = 232

/-- An instruction's length is 1 plus its mode's operand width; it is what the decoder consumes and what
the byte-length column says (R86). -/
def Obligations.LengthFollowsFromTheOpcode : Prop :=
  (∀ e ∈ opcodeTable, e.length = 1 + e.mode.width) ∧
  ∀ (op : Byte) (tail rest : List Byte) (i : Instr), decode (op :: tail) = .ok (i, rest) →
    (op :: tail).length = i.length + rest.length ∧
    i.length = match lookup op with
      | some e => 1 + e.mode.width
      | none => 1

/-! ## Flags -/

/-- `SetFlag` writes exactly the flag's bit, `GetFlag` reads it, and the mask of a flag is that bit
(R30, R31). -/
def Obligations.SetFlagWritesExactlyItsBit : Prop :=
  ∀ (f : Flag) (b : Bool) (p : Byte),
    f.mask = 1#8 <<< f.bit ∧ getFlag f p = p.getLsbD f.bit ∧
    ∀ k, k < 8 → (setFlag f b p).getLsbD k = if k = f.bit then b else p.getLsbD k

/-- `ZN(v)` sets Z exactly when `v` is zero and N to bit 7 of `v`, and writes no other flag and nothing
else (R32). -/
def Obligations.UpdateZNWritesZAndNOnly : Prop :=
  ∀ (s : State) (v : Byte),
    getFlag .Z (s.updateZN v).p = (v == 0x00) ∧ getFlag .N (s.updateZN v).p = v.getLsbD 7 ∧
    (∀ f, f ≠ .Z → f ≠ .N → getFlag f (s.updateZN v).p = getFlag f s.p) ∧
    s.updateZN v = { s with p := (s.updateZN v).p }

/-! ## Memory and stack -/

/-- A word is written and read little-endian, the high byte at `wrap16(addr + 1)`; no other byte and no
register changes (R53, R54). -/
def Obligations.WordAccessIsLittleEndian : Prop :=
  ∀ (s : State) (a w : Word), Memory.wf s.mem →
    (s.writeWord a w).readByte a = lowByte w ∧
    (s.writeWord a w).readByte (a + 1) = highByte w ∧
    (s.writeWord a w).readWord a = w ∧
    (∀ b, b ≠ a → b ≠ a + 1 → (s.writeWord a w).readByte b = s.readByte b) ∧
    s.writeWord a w = { s with mem := (s.writeWord a w).mem } ∧
    (s.readWord a).toNat = (s.readByte (a + 1)).toNat * 256 + (s.readByte a).toNat

/-- A push writes exactly the one byte at 0x0100 + SP and decrements SP modulo 256; a pop increments SP
modulo 256, reads the byte at 0x0100 + SP and writes no memory. The slot is in page 1 at every value of SP,
so the pointer wraps at both ends without an error (R60-R62; that no byte outside page 1 is touched is the
spec's own inference R64). -/
def Obligations.StackStaysInPageOne : Prop :=
  ∀ (s : State) (v : Byte), Memory.wf s.mem →
    (stackAddress s.sp).toNat = 0x0100 + s.sp.toNat ∧
    Stored s (s.push v) (stackAddress s.sp) v ∧
    s.push v = { s with mem := (s.push v).mem, sp := (s.push v).sp } ∧
    (s.push v).sp.toNat = (s.sp.toNat + 255) % 256 ∧
    (∃ a : Word, a.toNat = 0x0100 + (s.sp.toNat + 1) % 256 ∧ s.pop.1 = s.readByte a) ∧
    s.pop.2 = { s with sp := s.pop.2.sp } ∧
    s.pop.2.sp.toNat = (s.sp.toNat + 1) % 256 ∧
    (s.sp = 0x00 → (s.push v).readByte 0x0100 = v ∧ (s.push v).sp = 0xFF) ∧
    (s.sp = 0xFF → s.pop.1 = s.readByte 0x0100 ∧ s.pop.2.sp = 0x00)

/-- A push followed by a pop returns the byte and restores SP; so PHA then PLA keeps A and SP and takes Z
and N from A, and PHP then PLP keeps P and SP (the spec's own inference R175). -/
def Obligations.PushThenPopRestores : Prop :=
  ∀ (s : State) (v : Byte), Memory.wf s.mem →
    ((s.push v).pop.1 = v ∧ (s.push v).pop.2.sp = s.sp) ∧
    (∃ t u, exec .pha s = .next t ∧ exec .pla t = .next u ∧ u.a = s.a ∧ u.sp = s.sp ∧
      ZNFrom s.a s.p u.p) ∧
    ∃ t u, exec .php s = .next t ∧ exec .plp t = .next u ∧ u.p = s.p ∧ u.sp = s.sp

/-! ## Instructions -/

/-- LDA in its eight modes completes: A becomes the byte at the effective address the mode gives, Z and N
come from it, and nothing else but pc changes (R120-R128; that Immediate loads the decoded operand byte is
notes/assumptions/5.md). -/
def Obligations.LdaLoadsTheAddressedByte : Prop :=
  ∀ (s : State) (d : Byte) (w : Word),
    Loads (.ldaImm d) s d 1 ∧
    Loads (.ldaZp d) s (s.readByte (d.setWidth 16)) 1 ∧
    Loads (.ldaZpX d) s (s.readByte ((d + s.x).setWidth 16)) 1 ∧
    Loads (.ldaAbs w) s (s.readByte w) 2 ∧
    Loads (.ldaAbsX w) s (s.readByte (w + s.x.setWidth 16)) 2 ∧
    Loads (.ldaAbsY w) s (s.readByte (w + s.y.setWidth 16)) 2 ∧
    Loads (.ldaIndX d) s (s.readByte (wordOf (s.readByte ((d + s.x + 1).setWidth 16))
      (s.readByte ((d + s.x).setWidth 16)))) 1 ∧
    Loads (.ldaIndY d) s (s.readByte (wordOf (s.readByte ((d + 1).setWidth 16))
      (s.readByte (d.setWidth 16)) + s.y.setWidth 16)) 1

/-- STA in its seven modes completes: the byte at the effective address the mode gives becomes A, every
other byte and every register but pc is unchanged, and no flag is written (R130). -/
def Obligations.StaStoresAtTheAddress : Prop :=
  ∀ (s : State) (d : Byte) (w : Word), Memory.wf s.mem →
    StoresA (.staZp d) s (d.setWidth 16) 1 ∧
    StoresA (.staZpX d) s ((d + s.x).setWidth 16) 1 ∧
    StoresA (.staAbs w) s w 2 ∧
    StoresA (.staAbsX w) s (w + s.x.setWidth 16) 2 ∧
    StoresA (.staAbsY w) s (w + s.y.setWidth 16) 2 ∧
    StoresA (.staIndX d) s (wordOf (s.readByte ((d + s.x + 1).setWidth 16))
      (s.readByte ((d + s.x).setWidth 16))) 1 ∧
    StoresA (.staIndY d) s (wordOf (s.readByte ((d + 1).setWidth 16))
      (s.readByte (d.setWidth 16)) + s.y.setWidth 16) 1

/-- TAX completes: X becomes A, Z and N come from the new X, nothing else changes (R150). -/
def Obligations.TaxCopiesAToX : Prop :=
  ∀ s : State, encode .tax = [0xAA] ∧
    ∃ q, ZNFrom s.a s.p q ∧ exec .tax s = .next { s with x := s.a, p := q }

/-- TXS completes: SP becomes X, and nothing else changes, P included (R151; its opcode byte is the spec's
general knowledge, notes/assumptions/4.md). -/
def Obligations.TxsCopiesXToSP : Prop :=
  ∀ s : State, encode .txs = [0x9A] ∧ exec .txs s = .next { s with sp := s.x }

/-- TSX completes: X becomes SP, and nothing else changes, P included (R152). -/
def Obligations.TsxCopiesSPToX : Prop :=
  ∀ s : State, encode .tsx = [0xBA] ∧ exec .tsx s = .next { s with x := s.sp }

/-- INX completes: X becomes X + 1 modulo 256, Z and N come from the new X, nothing else changes, C and V
included (R153; its opcode byte is the spec's general knowledge, notes/assumptions/4.md). -/
def Obligations.InxIncrementsX : Prop :=
  ∀ s : State, encode .inx = [0xE8] ∧
    ∃ v q, v.toNat = (s.x.toNat + 1) % 256 ∧ ZNFrom v s.p q ∧
      exec .inx s = .next { s with x := v, p := q }

/-- PHA completes: A is stored at 0x0100 + SP, SP is decremented, Z and N come from A; no other byte,
register or flag changes (R171). -/
def Obligations.PhaPushesAAndSetsZN : Prop :=
  ∀ s : State, Memory.wf s.mem → encode .pha = [0x48] ∧
    ∃ m q, exec .pha s = .next { s with mem := m, sp := s.sp - 1, p := q } ∧
      Stored s { s with mem := m } (0x0100 + s.sp.setWidth 16) s.a ∧ ZNFrom s.a s.p q

/-- PLA completes: SP is incremented, A becomes the byte at 0x0100 + SP, Z and N come from it; no other
register or flag and no byte of memory changes (R172; its opcode byte is the spec's general knowledge,
notes/assumptions/4.md). -/
def Obligations.PlaPopsAAndSetsZN : Prop :=
  ∀ s : State, encode .pla = [0x68] ∧
    ∃ v q, v = s.readByte (0x0100 + (s.sp + 1).setWidth 16) ∧ ZNFrom v s.p q ∧
      exec .pla s = .next { s with a := v, sp := s.sp + 1, p := q }

/-- PHP completes: all eight bits of P are stored at 0x0100 + SP as they are, SP is decremented; nothing
else changes (R173; its opcode byte is the spec's general knowledge, notes/assumptions/4.md). -/
def Obligations.PhpPushesPVerbatim : Prop :=
  ∀ s : State, Memory.wf s.mem → encode .php = [0x08] ∧
    ∃ m, exec .php s = .next { s with mem := m, sp := s.sp - 1 } ∧
      Stored s { s with mem := m } (0x0100 + s.sp.setWidth 16) s.p

/-- PLP completes: SP is incremented and P becomes the byte at 0x0100 + SP, all eight bits; nothing else
changes (R174). -/
def Obligations.PlpReplacesP : Prop :=
  ∀ s : State, encode .plp = [0x28] ∧
    exec .plp s = .next { s with
      sp := s.sp + 1
      p := s.readByte (0x0100 + (s.sp + 1).setWidth 16) }

/-- NOP completes and has no effect; its whole step advances pc by 1 (R190; its opcode byte is the spec's
general knowledge, notes/assumptions/4.md). -/
def Obligations.NopOnlyAdvancesPC : Prop :=
  ∀ s : State, encode .nop = [0xEA] ∧ exec .nop s = .next s ∧
    (s.runState = .running → s.pc ≠ 0xFFFF → s.readByte s.pc = 0xEA →
      step s = .next { s with pc := s.pc + 1 })

/-- An unknown opcode completes: it appends one record with its address and byte and changes nothing
else; its whole step advances pc by 1. It differs from NOP by that record only (R88, R201; the one-byte
length is the spec's decision D5, the comparison with NOP its inference R191; that the record's address is
one below pc in the execute phase is notes/assumptions/6.md). -/
def Obligations.UnknownOpcodeOnlyLogs : Prop :=
  ∀ (s : State) (op : Byte),
    exec (.unknown op) s = .next { s with diag := s.diag ++ [⟨s.pc - 1, op⟩] } ∧
    (∃ t, exec .nop s = .next t ∧
      exec (.unknown op) s = .next { t with diag := t.diag ++ [⟨s.pc - 1, op⟩] }) ∧
    (s.runState = .running → s.pc ≠ 0xFFFF → lookup (s.readByte s.pc) = none →
      step s = .next { s with
        pc := s.pc + 1
        diag := s.diag ++ [⟨s.pc, s.readByte s.pc⟩] })

/-- Every instruction, with every operand and in every state, completes, and none halts the machine
(R200). -/
def Obligations.EveryInstructionCompletes : Prop :=
  ∀ (i : Instr) (s : State), ∃ t, exec i s = .next t ∧ t.runState = s.runState

/-! ## Frames -/

/-- A is written by LDA and PLA only, X by TAX, TSX and INX only, SP by TXS and the stack instructions
only, Y by none; a flag only where the instruction writes it; the log only by an unknown opcode; the run
state by none; pc moves past the operand bytes (R21-R24, R26, R33, R37, R95). -/
def Obligations.RegisterAndFlagFrame : Prop :=
  ∀ (i : Instr) (s t : State), exec i s = .next t →
    t.y = s.y ∧
    (i.writesA = false → t.a = s.a) ∧
    (i.writesX = false → t.x = s.x) ∧
    (i.writesSP = false → t.sp = s.sp) ∧
    (∀ f, writesFlag i f = false → getFlag f t.p = getFlag f s.p) ∧
    ((∀ op, i ≠ .unknown op) → t.diag = s.diag) ∧
    t.runState = s.runState ∧
    t.pc = s.pc + BitVec.ofNat 16 i.mode.width

/-- An instruction that stores writes exactly its one byte, at the address its meaning computes; every
other byte of memory reads as before, and all of memory does for the instructions that store nothing
(R52, R71). -/
def Obligations.MemoryFrame : Prop :=
  ∀ (i : Instr) (s t : State), Memory.wf s.mem → exec i s = .next t →
    match storeOf i s with
    | some (ea, v) => Stored s t ea v
    | none => ∀ b, t.readByte b = s.readByte b

/-- Y keeps its value in every step (R23). -/
def Obligations.NoStepWritesY : Prop :=
  ∀ s t : State, step s = .next t → t.y = s.y

/-- C, I, D, B0, B1 and V keep their values in every step but that of PLP, and so does all of P in the
steps of STA, TXS, TSX, PHP, NOP and unknown opcodes (R26, R27, R33, R208). -/
def Obligations.OnlyPlpWritesTheOtherFlags : Prop :=
  ∀ s t : State, step s = .next t → s.fetch ≠ .plp →
    (∀ f, f ≠ .Z → f ≠ .N → getFlag f t.p = getFlag f s.p) ∧
    (s.fetch.appliesZN = false → t.p = s.p)

/-- No flag decides what a step does: with another status byte the step completes too, and the two next
states agree on everything but P, and in PHP's case on the pushed byte (R27, R90). -/
def Obligations.FlagsDoNotSteer : Prop :=
  ∀ (s : State) (q : Byte), Memory.wf s.mem → s.runState = .running →
    ∃ t u, step s = .next t ∧ step { s with p := q } = .next u ∧
      u = { t with p := u.p, mem := u.mem } ∧
      (∀ b, s.fetch ≠ .php ∨ b ≠ stackAddress s.sp → u.readByte b = t.readByte b)

/-! ## Resolver -/

/-- The effective address and the new pc of each of the ten modes, ZeroPage-Y included (R96-R105). -/
def Obligations.ResolverModes : Prop :=
  ∀ (s : State) (pc : Word) (x y : Byte),
    resolver .immediate pc x y s.mem = (pc, pc + 1) ∧
    resolver .zeroPage pc x y s.mem = ((s.readByte pc).setWidth 16, pc + 1) ∧
    resolver .zeroPageX pc x y s.mem = ((s.readByte pc + x).setWidth 16, pc + 1) ∧
    resolver .zeroPageY pc x y s.mem = ((s.readByte pc + y).setWidth 16, pc + 1) ∧
    resolver .absolute pc x y s.mem = (s.readWord pc, pc + 2) ∧
    resolver .absoluteX pc x y s.mem = (s.readWord pc + x.setWidth 16, pc + 2) ∧
    resolver .absoluteY pc x y s.mem = (s.readWord pc + y.setWidth 16, pc + 2) ∧
    resolver .indirectX pc x y s.mem =
      (wordOf (s.readByte ((s.readByte pc + x + 1).setWidth 16))
        (s.readByte ((s.readByte pc + x).setWidth 16)), pc + 1) ∧
    resolver .indirectY pc x y s.mem =
      (wordOf (s.readByte ((s.readByte pc + 1).setWidth 16))
        (s.readByte ((s.readByte pc).setWidth 16)) + y.setWidth 16, pc + 1) ∧
    resolver .noneAddressing pc x y s.mem = (pc, pc)

/-- Resolving with index 0x00 is resolving without the index (the spec's own inference R111). -/
def Obligations.IndexZeroResolvesAlike : Prop :=
  ∀ (pc : Word) (x y : Byte) (m : Memory),
    resolver .zeroPageX pc 0x00 y m = resolver .zeroPage pc x y m ∧
    resolver .zeroPageY pc x 0x00 m = resolver .zeroPage pc x y m ∧
    resolver .absoluteX pc 0x00 y m = resolver .absolute pc x y m ∧
    resolver .absoluteY pc x 0x00 m = resolver .absolute pc x y m ∧
    resolver .indirectX pc 0x00 y m = resolver .indirectY pc x 0x00 m

/-! ## The step -/

/-- A Running machine whose pc is not the sentinel and whose bytes at pc decode to `i` executes `i` with
pc advanced past the opcode byte (R106). -/
def Obligations.StepRunsDecodedInstruction : Prop :=
  ∀ (s : State) (i : Instr) (rest : List Byte), s.runState = .running → s.pc ≠ 0xFFFF →
    decode [s.readByte s.pc, s.readByte (s.pc + 1), s.readByte (s.pc + 2)] = .ok (i, rest) →
    i.wf = true ∧ step s = exec i { s with pc := s.pc + 1 }

/-- A step of a Running machine is `Step()` of the spec's pseudocode: sentinel check, opcode fetch, table
lookup, a resolver that reads the operand bytes from memory, the row's effects; in another run state no
step is enabled (R106, with R95-R105, R120, R130, R150-R153, R171-R174, R190). -/
def Obligations.StepRefinesPseudocode : Prop :=
  ∀ s : State,
    (s.runState = .running → step s = .next (pseudocodeStep s)) ∧
    (s.runState ≠ .running → ∀ t, step s ≠ .next t)

/-- A next state exists exactly in run state Running (R106, R238). -/
def Obligations.StepsOnlyWhileRunning : Prop :=
  ∀ s : State, (∃ t, step s = .next t) ↔ s.runState = .running

/-- At pc 0xFFFF a step halts and changes nothing else; a step halts nowhere else; a run called there
returns at once (R240; that it is checked only at instruction boundaries is the spec's decision D6). -/
def Obligations.SentinelHaltsBeforeAnyFetch : Prop :=
  ∀ s : State,
    (s.runState = .running → s.pc = 0xFFFF → step s = .next { s with runState := .halted }) ∧
    (∀ t, step s = .next t → s.pc ≠ 0xFFFF → t.runState = .running) ∧
    (s.pc = 0xFFFF → s.RunReturns { s with runState := .halted })

/-- A step that executes an instruction leaves pc at its address plus its length, modulo 65536, the length
being 1 plus the row's operand width, or 1 for an unknown opcode (the spec's own inferences R109 and
R113, from R86, R95 and R106). -/
def Obligations.StepAdvancesPCByLength : Prop :=
  ∀ s : State, s.runState = .running → s.pc ≠ 0xFFFF →
    ∃ t, step s = .next t ∧ t.pc.toNat = (s.pc.toNat + match lookup (s.readByte s.pc) with
      | some e => 1 + e.mode.width
      | none => 1) % 65536

/-- LDA Absolute at 0xFFFE takes its operand word from 0xFFFF and 0x0000 and leaves pc 0x0001 with the run
going on (the spec's own inferences R113 and R241). -/
def Obligations.StraddlingLoadExecutesInFull : Prop :=
  ∀ s : State, s.runState = .running → s.pc = 0xFFFE → s.readByte 0xFFFE = 0xAD →
    ∃ t, step s = .next t ∧ t.pc = 0x0001 ∧ t.runState = .running ∧
      t.a = s.readByte (wordOf (s.readByte 0x0000) (s.readByte 0xFFFF))

/-- A byte that a step stores where pc then points is the opcode byte of the next fetch (R70, and the
spec's own inference R73). -/
def Obligations.StoreIsSeenByTheNextFetch : Prop :=
  ∀ (s t : State) (v : Byte), Memory.wf s.mem → s.pc ≠ 0xFFFF → step s = .next t →
    storeOf s.fetch { s with pc := s.pc + 1 } = some (t.pc, v) →
    t.fetch = decodeBytes v (s.readByte (t.pc + 1)) (s.readByte (t.pc + 2))

/-! ## Invariants -/

/-- Every step, from every state that meets the invariant, keeps it: memory stays canonical, and the log
names unknown opcodes only, none fetched from the sentinel address (R50, R88, R240). -/
def Obligations.StepKeepsInvariant : Prop :=
  ∀ s t : State, s.Inv → step s = .next t → t.Inv

/-- The state after reset and the state after construction meet the invariant. -/
def Obligations.ResetMeetsInvariant : Prop := State.reset.Inv ∧ State.new.Inv

/-- Every host command keeps the invariant. -/
def Obligations.HostCommandsKeepInvariant : Prop :=
  ∀ (s t : State) (c : HostCommand), s.Inv → s.hostCommand c = .ok t → t.Inv

/-- Every state that host commands and steps bring about meets the invariant, and every run from it is
safe: a Running machine always has a next state (R55, R200; which states the host can bring about is
notes/assumptions/2.md). -/
def Obligations.ReachableStatesAreSafe : Prop := ∀ s : State, Reachable s → s.Inv ∧ SafeRun s

/-! ## Host commands -/

/-- `new()` leaves registers, PC and every byte of memory zero, the run state Reset and the log empty
(R230). -/
def Obligations.NewIsAllZero : Prop :=
  (∀ a, State.new.readByte a = 0x00) ∧ State.new.a = 0x00 ∧ State.new.x = 0x00 ∧ State.new.y = 0x00 ∧
  State.new.p = 0x00 ∧ State.new.sp = 0x00 ∧ State.new.pc = 0x0000 ∧ State.new.runState = .reset ∧
  State.new.diag = []

/-- `reset()` zeroes A, X and P, sets SP to 0xFF, loads PC from 0xFFFC and 0xFFFD and leaves Y, memory and
the log (R232; that those three are kept is the spec's decisions D7, D8 and D19); the model's reset state
is that of a new instance. -/
def Obligations.ResetLoadsTheVector : Prop :=
  (∀ s : State, s.resetCommand = { s with
    a := 0x00
    x := 0x00
    p := 0x00
    sp := 0xFF
    pc := wordOf (s.readByte 0xFFFD) (s.readByte 0xFFFC)
    runState := .reset }) ∧
  State.reset = State.new.resetCommand

/-- Whatever instruction stores to a byte of the reset vector, that byte takes effect at the next `reset()`,
with the other byte as it was (R232, and the spec's own inference R67). -/
def Obligations.StoredVectorIsLoadedByReset : Prop :=
  ∀ (i : Instr) (s t : State) (v : Byte), Memory.wf s.mem → exec i s = .next t →
    (storeOf i s = some (0xFFFC, v) →
      t.resetCommand.pc = wordOf (s.readByte 0xFFFD) v) ∧
    (storeOf i s = some (0xFFFD, v) →
      t.resetCommand.pc = wordOf v (s.readByte 0xFFFC))

/-- `load_program` of at most 0x8000 bytes writes them from 0x8000, then sets pc to 0x8000 and the reset
vector to 0x8000, and changes nothing else; so the vector's bytes win over the program's (R233;
the order of the writes is the spec's decision D11). -/
def Obligations.LoadProgramWritesProgramAndVector : Prop :=
  ∀ (s : State) (b : List Byte), Memory.wf s.mem → b.length ≤ 0x8000 →
    ∃ m, s.loadProgram b = .ok { s with mem := m, pc := 0x8000 } ∧
      ∀ a : Word, State.readByte { s with mem := m } a =
        if a = 0xFFFC then 0x00
        else if a = 0xFFFD then 0x80
        else if 0x8000 ≤ a.toNat then (b[a.toNat - 0x8000]?).getD (s.readByte a)
        else s.readByte a

/-- CapacityError is raised by `load_program` of more than 0x8000 bytes and by nothing else (R206). That an
oversized `load_program` during a run is answered otherwise is the model's choice
(notes/assumptions/2.md). -/
def Obligations.CapacityErrorExactlyForOversizedPrograms : Prop :=
  ∀ (s : State) (c : HostCommand), s.hostCommand c = .error .capacityError ↔
    s.runState ≠ .running ∧ ∃ b, c = .loadProgram b ∧ 0x8000 < b.length

/-- The boot sequence new, load_program, reset leaves PC at 0x8000, SP 0xFF, the other registers zero, and
the program's bytes up to 0xFFFB in place (R230, R232, R233; the sequence is the spec's decision D12,
R235). -/
def Obligations.BootReproducesTheLoadedProgram : Prop :=
  ∀ b : List Byte, b.length ≤ 0x8000 → ∃ s, bootProgram b = .ok s ∧
    s.pc = 0x8000 ∧ s.sp = 0xFF ∧ s.a = 0x00 ∧ s.x = 0x00 ∧ s.y = 0x00 ∧ s.p = 0x00 ∧
    s.runState = .reset ∧
    ∀ k, k < b.length → k < 0x7FFC → b[k]? = some (s.readByte (BitVec.ofNat 16 (0x8000 + k)))

/-- The run state moves only as R237 says: a step keeps Running or goes to Halted, `run()` goes to Running
and `reset()` to Reset from any state, and loading and host writes leave it. -/
def Obligations.RunStateMoves : Prop :=
  (∀ s t : State, step s = .next t →
    s.runState = .running ∧
    t.runState = if s.pc = 0xFFFF then RunState.halted else RunState.running) ∧
  (∀ s : State, s.beginRun = { s with runState := .running } ∧ s.resetCommand.runState = .reset) ∧
  ∀ (s t : State) (c : HostCommand), s.hostCommand c = .ok t →
    t.runState = match c with
      | .run => RunState.running
      | .reset => RunState.reset
      | .new => RunState.reset
      | .loadProgram _ => s.runState
      | .writeA _ => s.runState
      | .writeX _ => s.runState
      | .writeY _ => s.runState
      | .writeP _ => s.runState
      | .writeSP _ => s.runState
      | .writePC _ => s.runState
      | .writeMemory _ _ => s.runState

/-- Between runs the host may write every register and every byte, each write changing that alone, and
during a run no command is carried out (R41). What a command during a run is answered is the model's
choice (notes/assumptions/2.md). -/
def Obligations.HostWritesBetweenRunsOnly : Prop :=
  ∀ s : State,
    (s.runState = .running → ∀ c t, s.hostCommand c ≠ .ok t) ∧
    (s.runState ≠ .running → ∀ (v : Byte) (w : Word),
      s.hostCommand (.writeA v) = .ok { s with a := v } ∧
      s.hostCommand (.writeX v) = .ok { s with x := v } ∧
      s.hostCommand (.writeY v) = .ok { s with y := v } ∧
      s.hostCommand (.writeP v) = .ok { s with p := v } ∧
      s.hostCommand (.writeSP v) = .ok { s with sp := v } ∧
      s.hostCommand (.writePC w) = .ok { s with pc := w } ∧
      (Memory.wf s.mem → ∃ m, s.hostCommand (.writeMemory w v) = .ok { s with mem := m } ∧
        Stored s { s with mem := m } w v))

/-! ## Runs -/

/-- `run()` returns exactly when some step finds pc = 0xFFFF, and then leaves the state that step found
with the run state Halted (R239; R242 and R243 are the spec's own inferences). -/
def Obligations.RunReturnsExactlyAtTheSentinel : Prop :=
  ∀ s t : State, s.RunReturns t ↔
    ∃ n u, Host.Core.run core n s.beginRun = .next u ∧ u.runState = .running ∧ u.pc = 0xFFFF ∧
      t = { u with runState := .halted }

/-- A Running machine reaches pc = 0xFFFF within 0xFFFF minus pc steps, so within 65535, unless one of the
steps up to there straddles the top of memory: a step from `t` to a Running `u` whose pc is below that of
`t`, at 0x0000 or 0x0001 (the spec's own inference R242, with R109 and R241). -/
def Obligations.RunReachesTheSentinelOrStraddles : Prop :=
  ∀ s : State, s.runState = .running →
    ∃ n t, n ≤ 0xFFFF - s.pc.toNat ∧ Host.Core.run core n s = .next t ∧ t.runState = .running ∧
      (t.pc = 0xFFFF ∨
        ∃ u, step t = .next u ∧ u.runState = .running ∧ u.pc.toNat < t.pc.toNat ∧ u.pc.toNat ≤ 1)

/-- Where every byte from pc to 0xFFFE is an unknown opcode, `run()` returns with pc = 0xFFFF, one record
for each of those bytes in order, and nothing else changed (the spec's own inference R244). -/
def Obligations.UnknownTailRunsToTheSentinel : Prop :=
  ∀ s : State,
    (∀ a : Word, s.pc.toNat ≤ a.toNat → a.toNat < 0xFFFF → lookup (s.readByte a) = none) →
    s.RunReturns { s with
      pc := 0xFFFF
      runState := .halted
      diag := s.diag ++ (List.range (0xFFFF - s.pc.toNat)).map fun k =>
        ⟨s.pc + BitVec.ofNat 16 k, s.readByte (s.pc + BitVec.ofNat 16 k)⟩ }

/-- Some run that the host can bring about never ends: after every number of steps the machine is Running,
and `run()` returns no state (the spec's own inference R242; which states the host can bring about is
notes/assumptions/2.md). -/
def Obligations.SomeRunNeverReturns : Prop :=
  ∃ s : State, Reachable s ∧ s.runState ≠ .running ∧
    (∀ n, ∃ u, Host.Core.run core n s.beginRun = .next u ∧ u.runState = .running) ∧
    ∀ t, ¬ s.RunReturns t
end

