-- ==== Sys2Proof/Laws/Decode.lean ====
section
/-! SUPPORT. Facts about the opcode table and the decoder. -/

namespace Sys2Proof

/-- A row the decoder finds is a row of the table, and its opcode is the byte looked up. -/
theorem lookup_some {op : Byte} {e : OpcodeEntry} (h : lookup op = some e) :
    e ∈ opcodeTable ∧ e.opcode = op := by
  have h1 := List.mem_of_find?_eq_some h
  have h2 := List.find?_some h
  exact ⟨h1, by simpa using h2⟩

/-- What the instruction of a row is: its mode is the row's, and no row makes an unknown opcode. -/
theorem row_instr : ∀ e ∈ opcodeTable, ∀ b1 b2, (e.instr b1 b2).mode = e.mode ∧
    (e.instr b1 b2).wf = true := by
  simp [opcodeTable, ldaRows, staRows, impliedRows, Instr.mode, Instr.wf]

/-- The instruction read from any three bytes is well-formed. -/
theorem decodeBytes_wf (op b1 b2 : Byte) : (decodeBytes op b1 b2).wf = true := by
  unfold decodeBytes
  split
  next e he => exact (row_instr e (lookup_some he).1 b1 b2).2
  next he => simp [Instr.wf, he]

/-- A row looks only at the operand bytes its mode consumes. -/
theorem row_instr_width : ∀ e ∈ opcodeTable, ∀ b1 b2,
    (e.mode.width = 0 → e.instr 0 0 = e.instr b1 b2) ∧
      (e.mode.width = 1 → e.instr b1 0 = e.instr b1 b2) := by
  simp [opcodeTable, ldaRows, staRows, impliedRows, Mode.width]

/-- Whatever the decoder takes off a list is an opcode byte and the operand bytes of its row. -/
theorem decode_ok {bs rest : List Byte} {i : Instr} (h : decode bs = .ok (i, rest)) :
    ∃ op ops, bs = op :: (ops ++ rest) ∧
      ((lookup op = none ∧ ops = [] ∧ i = .unknown op) ∨
        ∃ e, lookup op = some e ∧ ops.length = e.mode.width ∧
          i = e.instr (ops.getD 0 0) (ops.getD 1 0)) := by
  cases bs with
  | nil => cases h
  | cons op tl =>
    refine ⟨op, ?_⟩
    simp only [decode] at h
    cases hl : lookup op with
    | none => rw [hl] at h; cases h; exact ⟨[], rfl, .inl ⟨rfl, rfl, rfl⟩⟩
    | some e =>
      simp only [hl] at h
      split at h
      next hw => cases h; exact ⟨[], rfl, .inr ⟨e, rfl, hw.symm, rfl⟩⟩
      next hw => cases h; exact ⟨[_], rfl, .inr ⟨e, rfl, hw.symm, rfl⟩⟩
      next hw => cases h; exact ⟨[_, _], rfl, .inr ⟨e, rfl, hw.symm, rfl⟩⟩
      · cases h

/-- Decoding a list of three bytes or more reads the instruction that `decodeBytes` reads. -/
theorem decode_three {op b1 b2 : Byte} {tl rest : List Byte} {i : Instr}
    (h : decode (op :: b1 :: b2 :: tl) = .ok (i, rest)) : i = decodeBytes op b1 b2 := by
  simp only [decode] at h
  unfold decodeBytes
  cases hl : lookup op with
  | none => rw [hl] at h; cases h; rfl
  | some e =>
    have hr := row_instr_width e (lookup_some hl).1 b1 b2
    simp only [hl] at h
    split at h
    next hw => cases h; exact hr.1 hw
    next hw he => cases he; cases h; exact hr.2 hw
    next hw he => cases he; cases h; rfl
    · cases h

/-- The pattern aaa bbb cc of R91, which the decoder does not use: every LDA and STA row has cc = 01,
with aaa = 101 for LDA and 100 for STA. -/
theorem load_store_rows_pattern : ∀ e ∈ opcodeTable,
    (e.mnemonic = .lda → e.opcode &&& 0xE3 = 0xA1) ∧ (e.mnemonic = .sta → e.opcode &&& 0xE3 = 0x81) := by
  simp [opcodeTable, ldaRows, staRows, impliedRows]

end Sys2Proof
end

