-- ==== Sys2Proof/Laws/Flags.lean ====
section
/-! SUPPORT. What `setFlag` and `zeroNegative` do to the bits of the status byte. -/

namespace Sys2Proof.Machine

theorem getFlag_eq_bit (f : Flag) (p : Byte) : getFlag f p = p.getLsbD f.bit := by
  revert p; cases f <;> decide

theorem mask_bit (f g : Flag) : f.mask.getLsbD g.bit = decide (g = f) := by
  cases f <;> cases g <;> rfl

/-- Writing one flag changes that flag and no other. -/
@[simp] theorem getFlag_setFlag (f g : Flag) (b : Bool) (p : Byte) :
    getFlag g (setFlag f b p) = if g = f then b else getFlag g p := by
  have hg : g.bit < 8 := by cases g <;> decide
  simp only [getFlag_eq_bit, setFlag, BitVec.getLsbD_or, BitVec.getLsbD_and, BitVec.getLsbD_not, mask_bit, hg]
  cases b <;> by_cases h : g = f <;> simp [h, mask_bit]

/-- A status byte is its eight flags. -/
theorem byte_eq_of_getFlag {p q : Byte} (h : ∀ f, getFlag f p = getFlag f q) : p = q := by
  apply BitVec.eq_of_getLsbD_eq
  intro i hi
  have h' := fun f => (getFlag_eq_bit f p).symm.trans ((h f).trans (getFlag_eq_bit f q))
  match i, hi with
  | 0, _ => exact h' .C
  | 1, _ => exact h' .Z
  | 2, _ => exact h' .I
  | 3, _ => exact h' .D
  | 4, _ => exact h' .B0
  | 5, _ => exact h' .B1
  | 6, _ => exact h' .V
  | 7, _ => exact h' .N

/-- `ZN` writes Z and N, independently, and no other flag. -/
theorem getFlag_zeroNegative (g : Flag) (v p : Byte) :
    getFlag g (zeroNegative v p) =
      if g = .N then v.getLsbD 7 else if g = .Z then v == 0x00 else getFlag g p := by
  simp [zeroNegative]

end Sys2Proof.Machine
end

