-- ==== Sys2Proof/Laws/Memory.lean ====
section
/-! SUPPORT. The laws of the memory list: what a read sees after a write, that a write keeps the canonical
form, and that two canonical memories that read alike are equal. -/

namespace Sys2Proof.Machine.Memory

@[simp] theorem get_nil (k : Nat) : Memory.get [] k = unlistedByte := rfl

theorem wf_nil : Memory.wf [] := ⟨List.Pairwise.nil, by simp⟩

theorem wf_tail {c : Host.Cell} {m : Memory} (h : Memory.wf (c :: m)) : Memory.wf m :=
  ⟨h.1.of_cons, fun d hd => h.2 d (List.mem_cons_of_mem _ hd)⟩

/-- Every key after the first is above it. -/
theorem wf_head_lt {c : Host.Cell} {m : Memory} (h : Memory.wf (c :: m)) :
    ∀ d ∈ m, c.1 < d.1 := (List.pairwise_cons.mp h.1).1

/-- A key below or outside every listed key reads as unlisted. -/
theorem get_of_forall_ne {m : Memory} {k : Nat} (h : ∀ c ∈ m, c.1 ≠ k) :
    Memory.get m k = unlistedByte := by
  induction m with
  | nil => rfl
  | cons c m ih =>
    have hc := h c List.mem_cons_self
    simp [Memory.get, hc, ih fun d hd => h d (List.mem_cons_of_mem _ hd)]

theorem get_cons (k j : Nat) (v : Byte) (m : Memory) (hm : ∀ c ∈ m, c.1 ≠ k) :
    Memory.get (Memory.cons k v m) j = if j = k then v else Memory.get m j := by
  unfold Memory.cons
  by_cases hv : v = unlistedByte <;> by_cases hj : j = k
  · subst hj; simp [hv, get_of_forall_ne hm]
  · simp [hv, hj]
  · simp [hv, hj, Memory.get]
  · simp [hv, hj, Memory.get, Ne.symm hj]

/-- Read after write on a canonical memory, at any key. -/
theorem get_put {m : Memory} (h : Memory.wf m) (k j : Nat) (v : Byte) :
    Memory.get (Memory.put m k v) j = if j = k then v else Memory.get m j := by
  induction m with
  | nil => simpa [Memory.put] using get_cons k j v [] (by simp)
  | cons c m ih =>
    obtain ⟨i, u⟩ := c
    have hlt := wf_head_lt h
    unfold Memory.put
    split
    next hk =>
      refine get_cons k j v _ ?_
      rintro d (_ | ⟨_, hd⟩)
      · exact Nat.ne_of_gt hk
      · exact Nat.ne_of_gt (Nat.lt_trans hk (hlt d hd))
    next hk =>
      split
      next he =>
        subst he
        rw [get_cons _ j v m fun d hd => Nat.ne_of_gt (hlt d hd)]
        by_cases hj : j = k <;> simp [hj, Memory.get, Ne.symm]
      next he =>
        by_cases hij : i = j
        · subst hij; simp [Memory.get, Ne.symm he]
        · simp [Memory.get, hij, ih (wf_tail h)]

theorem mem_put {m : Memory} {k : Nat} {v : Byte} {c : Host.Cell} (hc : c ∈ Memory.put m k v) :
    (c = (k, v) ∧ v ≠ unlistedByte) ∨ c ∈ m := by
  induction m with
  | nil => unfold Memory.put Memory.cons at hc; split at hc <;> simp_all
  | cons d m ih =>
    obtain ⟨i, u⟩ := d
    unfold Memory.put Memory.cons at hc
    split at hc
    · split at hc
      · exact .inr hc
      · rcases List.mem_cons.mp hc with rfl | h
        · exact .inl ⟨rfl, ‹_›⟩
        · exact .inr h
    · split at hc
      · split at hc
        · exact .inr (List.mem_cons_of_mem _ hc)
        · rcases List.mem_cons.mp hc with rfl | h
          · exact .inl ⟨rfl, ‹_›⟩
          · exact .inr (List.mem_cons_of_mem _ h)
      · rcases List.mem_cons.mp hc with rfl | h
        · exact .inr List.mem_cons_self
        · exact (ih h).imp_right (List.mem_cons_of_mem _)

theorem wf_cons {m : Memory} {k : Nat} {v : Byte} (h : Memory.wf m) (hk : k < Config.memorySize)
    (hm : ∀ c ∈ m, k < c.1) : Memory.wf (Memory.cons k v m) := by
  unfold Memory.cons
  split
  · exact h
  next hv =>
    refine ⟨List.pairwise_cons.mpr ⟨hm, h.1⟩, ?_⟩
    rintro c (_ | ⟨_, hc⟩)
    · exact ⟨hk, hv⟩
    · exact h.2 c hc

/-- A write inside the array keeps the canonical form. -/
theorem wf_put {m : Memory} (h : Memory.wf m) {k : Nat} (hk : k < Config.memorySize) (v : Byte) :
    Memory.wf (Memory.put m k v) := by
  induction m with
  | nil => exact wf_cons wf_nil hk (by simp)
  | cons c m ih =>
    obtain ⟨i, u⟩ := c
    have hlt := wf_head_lt h
    unfold Memory.put
    split
    next hki =>
      refine wf_cons h hk ?_
      rintro d (_ | ⟨_, hd⟩)
      · exact hki
      · exact Nat.lt_trans hki (hlt d hd)
    next hki =>
      split
      next he => subst he; exact wf_cons (wf_tail h) hk hlt
      next he =>
        have hm := ih (wf_tail h)
        refine ⟨List.pairwise_cons.mpr ⟨fun d hd => ?_, hm.1⟩, ?_⟩
        · rcases mem_put hd with ⟨rfl, _⟩ | hd
          · exact Nat.lt_of_le_of_ne (Nat.le_of_not_lt hki) (Ne.symm he)
          · exact hlt d hd
        · rintro d (_ | ⟨_, hd⟩)
          · exact h.2 _ List.mem_cons_self
          · exact hm.2 d hd

/-- Two canonical memories that read alike everywhere are the same list. -/
theorem eq_of_get_eq {m n : Memory} (hm : Memory.wf m) (hn : Memory.wf n)
    (h : ∀ k, Memory.get m k = Memory.get n k) : m = n := by
  induction m generalizing n with
  | nil =>
    cases n with
    | nil => rfl
    | cons c n => exact absurd (h c.1) (by simpa [Memory.get] using (hn.2 c List.mem_cons_self).2.symm)
  | cons c m ih =>
    obtain ⟨i, u⟩ := c
    have hi := wf_head_lt hm
    have hu := (hm.2 (i, u) List.mem_cons_self).2
    cases n with
    | nil => exact absurd (h i) (by simpa [Memory.get] using hu)
    | cons d n =>
      obtain ⟨j, w⟩ := d
      have hj := wf_head_lt hn
      have hw := (hn.2 (j, w) List.mem_cons_self).2
      have hij : i = j := by
        rcases Nat.lt_trichotomy i j with hlt | he | hlt
        · refine absurd (h i) ?_
          rw [get_of_forall_ne (m := (j, w) :: n)]
          · simpa [Memory.get] using hu
          · rintro d (_ | ⟨_, hd⟩)
            · exact Nat.ne_of_gt hlt
            · exact Nat.ne_of_gt (Nat.lt_trans hlt (hj d hd))
        · exact he
        · refine absurd (h j) ?_
          rw [get_of_forall_ne (m := (i, u) :: m)]
          · simpa [Memory.get] using hw.symm
          · rintro d (_ | ⟨_, hd⟩)
            · exact Nat.ne_of_gt hlt
            · exact Nat.ne_of_gt (Nat.lt_trans hlt (hi d hd))
      subst hij
      have huw : u = w := by simpa [Memory.get] using h i
      subst huw
      congr 1
      refine ih (wf_tail hm) (wf_tail hn) fun k => ?_
      have hk := h k
      by_cases he : i = k
      · subst he
        rw [get_of_forall_ne fun d hd => Nat.ne_of_gt (hi d hd),
          get_of_forall_ne fun d hd => Nat.ne_of_gt (hj d hd)]
      · simpa [Memory.get, he] using hk

end Sys2Proof.Machine.Memory
end

