-- ==== Sys2Proof/Laws/State.lean ====
section
/-! SUPPORT. One lemma per field per named update of the state, true by unfolding, so that no later proof
unfolds a record update; and what a byte read sees through an update. -/

namespace Sys2Proof.Machine.State

variable (s : State)

@[simp] theorem setA_a (v : Byte) : (s.setA v).a = v := rfl
@[simp] theorem setA_x (v : Byte) : (s.setA v).x = s.x := rfl
@[simp] theorem setA_y (v : Byte) : (s.setA v).y = s.y := rfl
@[simp] theorem setA_p (v : Byte) : (s.setA v).p = s.p := rfl
@[simp] theorem setA_sp (v : Byte) : (s.setA v).sp = s.sp := rfl
@[simp] theorem setA_pc (v : Byte) : (s.setA v).pc = s.pc := rfl
@[simp] theorem setA_mem (v : Byte) : (s.setA v).mem = s.mem := rfl
@[simp] theorem setA_runState (v : Byte) : (s.setA v).runState = s.runState := rfl
@[simp] theorem setA_diag (v : Byte) : (s.setA v).diag = s.diag := rfl
@[simp] theorem setA_readByte (v : Byte) (a : Word) : (s.setA v).readByte a = s.readByte a := rfl
@[simp] theorem setA_readWord (v : Byte) (a : Word) : (s.setA v).readWord a = s.readWord a := rfl

@[simp] theorem setX_a (v : Byte) : (s.setX v).a = s.a := rfl
@[simp] theorem setX_x (v : Byte) : (s.setX v).x = v := rfl
@[simp] theorem setX_y (v : Byte) : (s.setX v).y = s.y := rfl
@[simp] theorem setX_p (v : Byte) : (s.setX v).p = s.p := rfl
@[simp] theorem setX_sp (v : Byte) : (s.setX v).sp = s.sp := rfl
@[simp] theorem setX_pc (v : Byte) : (s.setX v).pc = s.pc := rfl
@[simp] theorem setX_mem (v : Byte) : (s.setX v).mem = s.mem := rfl
@[simp] theorem setX_runState (v : Byte) : (s.setX v).runState = s.runState := rfl
@[simp] theorem setX_diag (v : Byte) : (s.setX v).diag = s.diag := rfl
@[simp] theorem setX_readByte (v : Byte) (a : Word) : (s.setX v).readByte a = s.readByte a := rfl
@[simp] theorem setX_readWord (v : Byte) (a : Word) : (s.setX v).readWord a = s.readWord a := rfl

@[simp] theorem setY_a (v : Byte) : (s.setY v).a = s.a := rfl
@[simp] theorem setY_x (v : Byte) : (s.setY v).x = s.x := rfl
@[simp] theorem setY_y (v : Byte) : (s.setY v).y = v := rfl
@[simp] theorem setY_p (v : Byte) : (s.setY v).p = s.p := rfl
@[simp] theorem setY_sp (v : Byte) : (s.setY v).sp = s.sp := rfl
@[simp] theorem setY_pc (v : Byte) : (s.setY v).pc = s.pc := rfl
@[simp] theorem setY_mem (v : Byte) : (s.setY v).mem = s.mem := rfl
@[simp] theorem setY_runState (v : Byte) : (s.setY v).runState = s.runState := rfl
@[simp] theorem setY_diag (v : Byte) : (s.setY v).diag = s.diag := rfl
@[simp] theorem setY_readByte (v : Byte) (a : Word) : (s.setY v).readByte a = s.readByte a := rfl
@[simp] theorem setY_readWord (v : Byte) (a : Word) : (s.setY v).readWord a = s.readWord a := rfl

@[simp] theorem setP_a (v : Byte) : (s.setP v).a = s.a := rfl
@[simp] theorem setP_x (v : Byte) : (s.setP v).x = s.x := rfl
@[simp] theorem setP_y (v : Byte) : (s.setP v).y = s.y := rfl
@[simp] theorem setP_p (v : Byte) : (s.setP v).p = v := rfl
@[simp] theorem setP_sp (v : Byte) : (s.setP v).sp = s.sp := rfl
@[simp] theorem setP_pc (v : Byte) : (s.setP v).pc = s.pc := rfl
@[simp] theorem setP_mem (v : Byte) : (s.setP v).mem = s.mem := rfl
@[simp] theorem setP_runState (v : Byte) : (s.setP v).runState = s.runState := rfl
@[simp] theorem setP_diag (v : Byte) : (s.setP v).diag = s.diag := rfl
@[simp] theorem setP_readByte (v : Byte) (a : Word) : (s.setP v).readByte a = s.readByte a := rfl
@[simp] theorem setP_readWord (v : Byte) (a : Word) : (s.setP v).readWord a = s.readWord a := rfl

@[simp] theorem setSP_a (v : Byte) : (s.setSP v).a = s.a := rfl
@[simp] theorem setSP_x (v : Byte) : (s.setSP v).x = s.x := rfl
@[simp] theorem setSP_y (v : Byte) : (s.setSP v).y = s.y := rfl
@[simp] theorem setSP_p (v : Byte) : (s.setSP v).p = s.p := rfl
@[simp] theorem setSP_sp (v : Byte) : (s.setSP v).sp = v := rfl
@[simp] theorem setSP_pc (v : Byte) : (s.setSP v).pc = s.pc := rfl
@[simp] theorem setSP_mem (v : Byte) : (s.setSP v).mem = s.mem := rfl
@[simp] theorem setSP_runState (v : Byte) : (s.setSP v).runState = s.runState := rfl
@[simp] theorem setSP_diag (v : Byte) : (s.setSP v).diag = s.diag := rfl
@[simp] theorem setSP_readByte (v : Byte) (a : Word) : (s.setSP v).readByte a = s.readByte a := rfl
@[simp] theorem setSP_readWord (v : Byte) (a : Word) : (s.setSP v).readWord a = s.readWord a := rfl

@[simp] theorem setPC_a (v : Word) : (s.setPC v).a = s.a := rfl
@[simp] theorem setPC_x (v : Word) : (s.setPC v).x = s.x := rfl
@[simp] theorem setPC_y (v : Word) : (s.setPC v).y = s.y := rfl
@[simp] theorem setPC_p (v : Word) : (s.setPC v).p = s.p := rfl
@[simp] theorem setPC_sp (v : Word) : (s.setPC v).sp = s.sp := rfl
@[simp] theorem setPC_pc (v : Word) : (s.setPC v).pc = v := rfl
@[simp] theorem setPC_mem (v : Word) : (s.setPC v).mem = s.mem := rfl
@[simp] theorem setPC_runState (v : Word) : (s.setPC v).runState = s.runState := rfl
@[simp] theorem setPC_diag (v : Word) : (s.setPC v).diag = s.diag := rfl
@[simp] theorem setPC_readByte (v : Word) (a : Word) : (s.setPC v).readByte a = s.readByte a := rfl
@[simp] theorem setPC_readWord (v : Word) (a : Word) : (s.setPC v).readWord a = s.readWord a := rfl

@[simp] theorem setRunState_a (r : RunState) : (s.setRunState r).a = s.a := rfl
@[simp] theorem setRunState_x (r : RunState) : (s.setRunState r).x = s.x := rfl
@[simp] theorem setRunState_y (r : RunState) : (s.setRunState r).y = s.y := rfl
@[simp] theorem setRunState_p (r : RunState) : (s.setRunState r).p = s.p := rfl
@[simp] theorem setRunState_sp (r : RunState) : (s.setRunState r).sp = s.sp := rfl
@[simp] theorem setRunState_pc (r : RunState) : (s.setRunState r).pc = s.pc := rfl
@[simp] theorem setRunState_mem (r : RunState) : (s.setRunState r).mem = s.mem := rfl
@[simp] theorem setRunState_runState (r : RunState) : (s.setRunState r).runState = r := rfl
@[simp] theorem setRunState_diag (r : RunState) : (s.setRunState r).diag = s.diag := rfl
@[simp] theorem setRunState_readByte (r : RunState) (a : Word) : (s.setRunState r).readByte a = s.readByte a := rfl
@[simp] theorem setRunState_readWord (r : RunState) (a : Word) : (s.setRunState r).readWord a = s.readWord a := rfl

@[simp] theorem advancePC_a (n : Nat) : (s.advancePC n).a = s.a := rfl
@[simp] theorem advancePC_x (n : Nat) : (s.advancePC n).x = s.x := rfl
@[simp] theorem advancePC_y (n : Nat) : (s.advancePC n).y = s.y := rfl
@[simp] theorem advancePC_p (n : Nat) : (s.advancePC n).p = s.p := rfl
@[simp] theorem advancePC_sp (n : Nat) : (s.advancePC n).sp = s.sp := rfl
@[simp] theorem advancePC_pc (n : Nat) : (s.advancePC n).pc = s.pc + BitVec.ofNat 16 n := rfl
@[simp] theorem advancePC_mem (n : Nat) : (s.advancePC n).mem = s.mem := rfl
@[simp] theorem advancePC_runState (n : Nat) : (s.advancePC n).runState = s.runState := rfl
@[simp] theorem advancePC_diag (n : Nat) : (s.advancePC n).diag = s.diag := rfl
@[simp] theorem advancePC_readByte (n : Nat) (a : Word) : (s.advancePC n).readByte a = s.readByte a := rfl
@[simp] theorem advancePC_readWord (n : Nat) (a : Word) : (s.advancePC n).readWord a = s.readWord a := rfl

@[simp] theorem writeByte_a (addr : Word) (v : Byte) : (s.writeByte addr v).a = s.a := rfl
@[simp] theorem writeByte_x (addr : Word) (v : Byte) : (s.writeByte addr v).x = s.x := rfl
@[simp] theorem writeByte_y (addr : Word) (v : Byte) : (s.writeByte addr v).y = s.y := rfl
@[simp] theorem writeByte_p (addr : Word) (v : Byte) : (s.writeByte addr v).p = s.p := rfl
@[simp] theorem writeByte_sp (addr : Word) (v : Byte) : (s.writeByte addr v).sp = s.sp := rfl
@[simp] theorem writeByte_pc (addr : Word) (v : Byte) : (s.writeByte addr v).pc = s.pc := rfl
@[simp] theorem writeByte_mem (addr : Word) (v : Byte) : (s.writeByte addr v).mem = s.mem.put addr.toNat v := rfl
@[simp] theorem writeByte_runState (addr : Word) (v : Byte) : (s.writeByte addr v).runState = s.runState := rfl
@[simp] theorem writeByte_diag (addr : Word) (v : Byte) : (s.writeByte addr v).diag = s.diag := rfl

@[simp] theorem emitDiag_a (addr : Word) (op : Byte) : (s.emitDiag addr op).a = s.a := rfl
@[simp] theorem emitDiag_x (addr : Word) (op : Byte) : (s.emitDiag addr op).x = s.x := rfl
@[simp] theorem emitDiag_y (addr : Word) (op : Byte) : (s.emitDiag addr op).y = s.y := rfl
@[simp] theorem emitDiag_p (addr : Word) (op : Byte) : (s.emitDiag addr op).p = s.p := rfl
@[simp] theorem emitDiag_sp (addr : Word) (op : Byte) : (s.emitDiag addr op).sp = s.sp := rfl
@[simp] theorem emitDiag_pc (addr : Word) (op : Byte) : (s.emitDiag addr op).pc = s.pc := rfl
@[simp] theorem emitDiag_mem (addr : Word) (op : Byte) : (s.emitDiag addr op).mem = s.mem := rfl
@[simp] theorem emitDiag_runState (addr : Word) (op : Byte) : (s.emitDiag addr op).runState = s.runState := rfl
@[simp] theorem emitDiag_diag (addr : Word) (op : Byte) : (s.emitDiag addr op).diag = s.diag ++ [⟨addr, op⟩] := rfl
@[simp] theorem emitDiag_readByte (addr : Word) (op : Byte) (a : Word) : (s.emitDiag addr op).readByte a = s.readByte a := rfl
@[simp] theorem emitDiag_readWord (addr : Word) (op : Byte) (a : Word) : (s.emitDiag addr op).readWord a = s.readWord a := rfl

@[simp] theorem halt_a : (s.halt).a = s.a := rfl
@[simp] theorem halt_x : (s.halt).x = s.x := rfl
@[simp] theorem halt_y : (s.halt).y = s.y := rfl
@[simp] theorem halt_p : (s.halt).p = s.p := rfl
@[simp] theorem halt_sp : (s.halt).sp = s.sp := rfl
@[simp] theorem halt_pc : (s.halt).pc = s.pc := rfl
@[simp] theorem halt_mem : (s.halt).mem = s.mem := rfl
@[simp] theorem halt_runState : (s.halt).runState = .halted := rfl
@[simp] theorem halt_diag : (s.halt).diag = s.diag := rfl
@[simp] theorem halt_readByte (a : Word) : (s.halt).readByte a = s.readByte a := rfl
@[simp] theorem halt_readWord (a : Word) : (s.halt).readWord a = s.readWord a := rfl

@[simp] theorem updateZN_a (v : Byte) : (s.updateZN v).a = s.a := rfl
@[simp] theorem updateZN_x (v : Byte) : (s.updateZN v).x = s.x := rfl
@[simp] theorem updateZN_y (v : Byte) : (s.updateZN v).y = s.y := rfl
@[simp] theorem updateZN_p (v : Byte) : (s.updateZN v).p = zeroNegative v s.p := rfl
@[simp] theorem updateZN_sp (v : Byte) : (s.updateZN v).sp = s.sp := rfl
@[simp] theorem updateZN_pc (v : Byte) : (s.updateZN v).pc = s.pc := rfl
@[simp] theorem updateZN_mem (v : Byte) : (s.updateZN v).mem = s.mem := rfl
@[simp] theorem updateZN_runState (v : Byte) : (s.updateZN v).runState = s.runState := rfl
@[simp] theorem updateZN_diag (v : Byte) : (s.updateZN v).diag = s.diag := rfl
@[simp] theorem updateZN_readByte (v : Byte) (a : Word) : (s.updateZN v).readByte a = s.readByte a := rfl
@[simp] theorem updateZN_readWord (v : Byte) (a : Word) : (s.updateZN v).readWord a = s.readWord a := rfl

@[simp] theorem push_a (v : Byte) : (s.push v).a = s.a := rfl
@[simp] theorem push_x (v : Byte) : (s.push v).x = s.x := rfl
@[simp] theorem push_y (v : Byte) : (s.push v).y = s.y := rfl
@[simp] theorem push_p (v : Byte) : (s.push v).p = s.p := rfl
@[simp] theorem push_sp (v : Byte) : (s.push v).sp = s.sp - 1 := rfl
@[simp] theorem push_pc (v : Byte) : (s.push v).pc = s.pc := rfl
@[simp] theorem push_mem (v : Byte) : (s.push v).mem = s.mem.put (stackAddress s.sp).toNat v := rfl
@[simp] theorem push_runState (v : Byte) : (s.push v).runState = s.runState := rfl
@[simp] theorem push_diag (v : Byte) : (s.push v).diag = s.diag := rfl

end Sys2Proof.Machine.State
end

