-- ==== Sys2Proof/Laws/Ops.lean ====
section
/-! SUPPORT. What the memory bus, the stack engine and the byte-placing loop do, in terms of one byte
read. -/

namespace Sys2Proof

@[simp] theorem wordOf_toNat (hi lo : Byte) : (wordOf hi lo).toNat = hi.toNat * 256 + lo.toNat := by
  have := hi.isLt
  have := lo.isLt
  simp only [wordOf, BitVec.toNat_ofNat]
  omega

@[simp] theorem lowByte_toNat (w : Word) : (lowByte w).toNat = w.toNat % 256 := rfl

@[simp] theorem highByte_toNat (w : Word) : (highByte w).toNat = w.toNat / 256 := by
  have := w.isLt
  simp only [highByte, BitVec.toNat_ofNat]
  omega

@[simp] theorem wordOf_highByte_lowByte (w : Word) : wordOf (highByte w) (lowByte w) = w := by
  apply BitVec.eq_of_toNat_eq
  rw [wordOf_toNat, lowByte_toNat, highByte_toNat]
  omega

@[simp] theorem lowByte_wordOf (hi lo : Byte) : lowByte (wordOf hi lo) = lo := by
  apply BitVec.eq_of_toNat_eq
  rw [lowByte_toNat, wordOf_toNat]
  omega

@[simp] theorem highByte_wordOf (hi lo : Byte) : highByte (wordOf hi lo) = hi := by
  apply BitVec.eq_of_toNat_eq
  rw [highByte_toNat, wordOf_toNat]
  omega

namespace Machine

/-- The key of an address is inside the array. -/
theorem toNat_lt_memorySize (a : Word) : a.toNat < Config.memorySize := a.isLt

/-- A stack slot is 256 plus the stack pointer, with no wrap. -/
theorem stackAddress_toNat (sp : Byte) : (stackAddress sp).toNat = 256 + sp.toNat := by
  have := sp.isLt
  simp [stackAddress, zext16, Config.stackBase]
  omega

theorem stackAddress_injective {p q : Byte} (h : stackAddress p = stackAddress q) : p = q := by
  have := congrArg BitVec.toNat h
  rw [stackAddress_toNat, stackAddress_toNat] at this
  exact BitVec.eq_of_toNat_eq (by omega)

namespace State

/-- What a byte read sees after a byte write. -/
theorem readByte_writeByte {s : State} (h : Memory.wf s.mem) (a b : Word) (v : Byte) :
    (s.writeByte a v).readByte b = if b = a then v else s.readByte b := by
  simp only [readByte, writeByte_mem, Memory.get_put h, BitVec.toNat_inj]

theorem writeByte_wf {s : State} (h : Memory.wf s.mem) (a : Word) (v : Byte) :
    Memory.wf (s.writeByte a v).mem := Memory.wf_put h (toNat_lt_memorySize a) v

theorem writeWord_wf {s : State} (h : Memory.wf s.mem) (a w : Word) :
    Memory.wf (s.writeWord a w).mem := writeByte_wf (writeByte_wf h _ _) _ _

theorem push_wf {s : State} (h : Memory.wf s.mem) (v : Byte) : Memory.wf (s.push v).mem :=
  writeByte_wf h _ _

/-- What a byte read sees after a push. -/
theorem readByte_push {s : State} (h : Memory.wf s.mem) (v : Byte) (b : Word) :
    (s.push v).readByte b = if b = stackAddress s.sp then v else s.readByte b :=
  readByte_writeByte h _ _ _

@[simp] theorem pop_fst (s : State) : s.pop.1 = s.readByte (stackAddress (s.sp + 1)) := rfl

@[simp] theorem pop_snd (s : State) : s.pop.2 = s.setSP (s.sp + 1) := rfl

/-- Placing bytes writes memory and nothing else. -/
theorem placeBytes_eq (bs : List Byte) : ∀ (s : State) (a : Word),
    s.placeBytes a bs = { s with mem := (s.placeBytes a bs).mem } := by
  induction bs with
  | nil => intro s a; rfl
  | cons b bs ih => intro s a; exact ih (s.writeByte a b) (a + 1)

theorem placeBytes_wf (bs : List Byte) : ∀ (s : State) (a : Word), Memory.wf s.mem →
    Memory.wf (s.placeBytes a bs).mem := by
  induction bs with
  | nil => intro s a h; exact h
  | cons b bs ih => intro s a h; exact ih _ _ (writeByte_wf h a b)

/-- What a byte read sees after placing bytes that do not run past the top of memory. -/
theorem readByte_placeBytes (bs : List Byte) : ∀ (s : State) (a : Word), Memory.wf s.mem →
    a.toNat + bs.length ≤ Config.memorySize → ∀ b : Word,
      (s.placeBytes a bs).readByte b =
        if a.toNat ≤ b.toNat then (bs[b.toNat - a.toNat]?).getD (s.readByte b) else s.readByte b := by
  induction bs with
  | nil => intro s a _ _ b; simp [placeBytes]
  | cons c bs ih =>
    intro s a h hl b
    have ne_of_ne : b ≠ a → b.toNat ≠ a.toNat := fun hb e => hb (BitVec.eq_of_toNat_eq e)
    simp only [placeBytes, List.length_cons] at hl ⊢
    by_cases hz : bs = []
    · subst hz
      simp only [placeBytes, readByte_writeByte h]
      by_cases hb : b = a
      · simp [hb]
      · rw [if_neg hb]
        split
        next hle =>
          obtain ⟨k, hk⟩ := Nat.exists_eq_add_of_lt (Nat.lt_of_le_of_ne hle (ne_of_ne hb).symm)
          simp [show b.toNat - a.toNat = k + 1 by omega]
        · rfl
    · have hpos := List.length_pos_iff.mpr hz
      have hsize : Config.memorySize = 65536 := rfl
      have ha : (a + 1).toNat = a.toNat + 1 := by simp; omega
      rw [ih _ _ (writeByte_wf h a c) (by omega), readByte_writeByte h, ha]
      by_cases hb : b = a
      · subst hb; rw [if_neg (by omega)]; simp
      · have := ne_of_ne hb
        rw [if_neg hb]
        by_cases hlt : a.toNat + 1 ≤ b.toNat
        · rw [if_pos hlt, if_pos (by omega),
            show b.toNat - a.toNat = (b.toNat - (a.toNat + 1)) + 1 by omega, List.getElem?_cons_succ]
        · rw [if_neg hlt, if_neg (by omega)]

end State

end Machine

end Sys2Proof
end

