-- ==== Sys2Proof/Laws/Step.lean ====
section
/-! SUPPORT. What a step can do, said once. -/

namespace Sys2Proof.Machine

/-- If a step answers a next state, then the machine was Running and either halted at the sentinel or
executed the fetched instruction. -/
theorem step_next {s t : State} (h : step s = .next t) :
    s.runState = .running ∧
      ((s.pc = Config.sentinel ∧ t = s.halt) ∨
        (s.pc ≠ Config.sentinel ∧ exec s.fetch (s.advancePC 1) = .next t)) := by
  unfold step cycle State.atSentinel at h
  split at h
  · cases h
  · cases h
  next hr =>
    refine ⟨hr, ?_⟩
    split at h
    next hs => exact .inl ⟨by simpa using hs, by cases h; rfl⟩
    next hs => exact .inr ⟨by simpa using hs, h⟩

/-- A step at the sentinel halts. -/
theorem step_sentinel {s : State} (hr : s.runState = .running) (hp : s.pc = Config.sentinel) :
    step s = .next s.halt := by
  simp [step, cycle, State.atSentinel, hr, hp]

/-- A step elsewhere executes the fetched instruction. -/
theorem step_exec {s : State} (hr : s.runState = .running) (hp : s.pc ≠ Config.sentinel) :
    step s = exec s.fetch (s.advancePC 1) := by
  simp [step, cycle, State.atSentinel, hr, hp]

/-- A fetched instruction is well-formed. -/
theorem fetch_wf (s : State) : s.fetch.wf = true := decodeBytes_wf _ _ _

/-- A run of one more step, where the first step answers a next state. -/
theorem run_next {s t : State} (h : step s = .next t) (n : Nat) :
    Host.Core.run core (n + 1) s = Host.Core.run core n t := by
  have h' : core.step s = .next t := h
  simp [Host.Core.run, h']

/-- A run of at least one step, where the first step is a fault. -/
theorem run_fault {s : State} {r : Fault} (h : step s = .fault r) (n : Nat) :
    Host.Core.run core (n + 1) s = .fault r := by
  have h' : core.step s = .fault r := h
  simp [Host.Core.run, h']

end Sys2Proof.Machine
end

