-- ==== Sys2Proof/Laws/Host.lean ====
section
/-! SUPPORT. What the host commands do to each field, and the loop of `run()` one step at a time. -/

namespace Sys2Proof.Machine.State

/-- Everything `reset()` does. -/
theorem resetCommand_eq (s : State) : s.resetCommand = { s with
    a := 0x00
    x := 0x00
    p := 0x00
    sp := Config.resetSP
    pc := s.readWord Config.resetVector
    runState := .reset } := rfl

/-- When `load_program` succeeds and what it leaves. -/
theorem loadProgram_ok {s t : State} {bs : List Byte} (h : s.loadProgram bs = .ok t) :
    bs.length ≤ Config.maxProgramLength ∧
      t = { s with
        pc := Config.loadAddress
        mem := ((s.placeBytes Config.loadAddress bs).writeWord Config.resetVector Config.loadAddress).mem } := by
  unfold loadProgram at h
  split at h
  · cases h
  next hl =>
    refine ⟨Nat.le_of_not_lt hl, ?_⟩
    rw [placeBytes_eq bs s] at h
    cases h
    rfl

/-- The loop stops in a state that is not Running. -/
theorem runLoop_stop {s : State} (h : s.runState ≠ .running) (fuel : Nat) :
    runLoop fuel s = some s := by
  cases fuel <;> simp [runLoop, h]

/-- One turn of the loop. -/
theorem runLoop_next {s t : State} (h : step s = .next t) (fuel : Nat) :
    runLoop (fuel + 1) s = runLoop fuel t := by
  simp [runLoop, (step_next h).1, h]

end Sys2Proof.Machine.State
end

