-- ==== Sys2Proof/Laws/Operands.lean ====
section
/-! SUPPORT. What resolving an operand, a load and a store do, said once for every operand form. -/

namespace Sys2Proof.Machine

@[simp] theorem resolve_fst (o : Operand) (s : State) : (resolve o s).1 = effectiveAddress o s := rfl

@[simp] theorem resolve_snd (o : Operand) (s : State) : (resolve o s).2 = s.advancePC o.mode.width := rfl

/-- Everything a load does. -/
theorem loadA_eq (o : Operand) (s : State) :
    loadA o s = { s with
      a := operandByte o (effectiveAddress o s) s
      p := zeroNegative (operandByte o (effectiveAddress o s) s) s.p
      pc := s.pc + BitVec.ofNat 16 o.mode.width } := by
  cases o <;> rfl

/-- Everything a store does. -/
theorem storeA_eq (o : Operand) (s : State) :
    storeA o s = { s with
      mem := s.mem.put (effectiveAddress o s).toNat s.a
      pc := s.pc + BitVec.ofNat 16 o.mode.width } := rfl

/-- What a byte read sees after a store. -/
theorem readByte_storeA {s : State} (h : Memory.wf s.mem) (o : Operand) (b : Word) :
    (storeA o s).readByte b = if b = effectiveAddress o s then s.a else s.readByte b :=
  State.readByte_writeByte (s := s) h _ _ _

theorem storeA_wf {s : State} (h : Memory.wf s.mem) (o : Operand) : Memory.wf (storeA o s).mem :=
  State.writeByte_wf (s := s) h _ _

/-- The zero-page forms stay in page 0. -/
theorem zeroPage_effectiveAddress_lt (zz : Byte) (s : State) :
    (effectiveAddress (.zeroPage zz) s).toNat < 256 ∧ (effectiveAddress (.zeroPageX zz) s).toNat < 256 ∧
      (effectiveAddress (.zeroPageY zz) s).toNat < 256 := by
  have h : ∀ b : Byte, (zext16 b).toNat < 256 := fun b => by
    have := b.isLt
    simp only [zext16, BitVec.toNat_setWidth]
    omega
  exact ⟨h _, h _, h _⟩

end Sys2Proof.Machine
end

