-- ==== Sys2Proof/Laws/PerInstr.lean ====
section
/-! SUPPORT. One lemma per constructor for the family named in LAWS.json: the encoding of an instruction has
as many bytes as 1 plus its mode's operand width (spec/30_encoding.md R86). -/

namespace Sys2Proof.Laws.EncodingLength

/-- The encoding's length in bytes is the instruction's length. -/
def Statement (i : Instr) : Prop := (encode i).length = i.length

theorem ldaImm (d8 : Byte) : Statement (.ldaImm d8) := rfl

theorem ldaZp (zz : Byte) : Statement (.ldaZp zz) := rfl

theorem ldaZpX (zz : Byte) : Statement (.ldaZpX zz) := rfl

theorem ldaAbs (hhll : Word) : Statement (.ldaAbs hhll) := rfl

theorem ldaAbsX (hhll : Word) : Statement (.ldaAbsX hhll) := rfl

theorem ldaAbsY (hhll : Word) : Statement (.ldaAbsY hhll) := rfl

theorem ldaIndX (zz : Byte) : Statement (.ldaIndX zz) := rfl

theorem ldaIndY (zz : Byte) : Statement (.ldaIndY zz) := rfl

theorem staZp (zz : Byte) : Statement (.staZp zz) := rfl

theorem staZpX (zz : Byte) : Statement (.staZpX zz) := rfl

theorem staAbs (hhll : Word) : Statement (.staAbs hhll) := rfl

theorem staAbsX (hhll : Word) : Statement (.staAbsX hhll) := rfl

theorem staAbsY (hhll : Word) : Statement (.staAbsY hhll) := rfl

theorem staIndX (zz : Byte) : Statement (.staIndX zz) := rfl

theorem staIndY (zz : Byte) : Statement (.staIndY zz) := rfl

theorem tax : Statement .tax := rfl

theorem txs : Statement .txs := rfl

theorem tsx : Statement .tsx := rfl

theorem inx : Statement .inx := rfl

theorem pha : Statement .pha := rfl

theorem pla : Statement .pla := rfl

theorem php : Statement .php := rfl

theorem plp : Statement .plp := rfl

theorem nop : Statement .nop := rfl

theorem unknown (op : Byte) : Statement (.unknown op) := rfl

end Sys2Proof.Laws.EncodingLength
end

