-- ==== Sys2Proof/Laws/Safety.lean ====
section
/-! SUPPORT. The small lemmas of the claims' vocabulary in Safety.lean. -/

namespace Sys2Proof.Machine

/-- `zeroNegative` is the status byte that `ZNFrom` describes. -/
theorem znFrom_zeroNegative (v p : Byte) : ZNFrom v p (zeroNegative v p) :=
  fun f => getFlag_zeroNegative f v p

/-- A write of one byte stores that byte and no other. -/
theorem stored_put {s : State} (h : Memory.wf s.mem) (a : Word) (v : Byte) :
    Stored s { s with mem := s.mem.put a.toNat v } a v := by
  have hr := fun b => State.readByte_writeByte h a b v
  exact ⟨(hr a).trans (if_pos rfl), fun b hb => (hr b).trans (if_neg hb)⟩

/-- An instruction that stores nothing leaves all of memory. -/
theorem exec_mem_of_no_store {i : Instr} {s t : State} (hs : storeOf i s = none)
    (h : exec i s = .next t) : t.mem = s.mem := by
  cases i <;> first | (cases h; rfl) | (simp [storeOf] at hs)

end Sys2Proof.Machine
end

