-- ==== Sys2Proof/Machine/Assembly.lean ====
section
/-! DEFINITION. The operand syntax in which the spec writes instructions (spec/30_encoding.md R92): two hex
digits for a byte, four for an address. An unknown opcode has no syntax there. -/

namespace Sys2Proof

/-- One hex digit. -/
def hexDigit (n : Nat) : Char :=
  match n with
  | 0 => '0' | 1 => '1' | 2 => '2' | 3 => '3' | 4 => '4' | 5 => '5' | 6 => '6' | 7 => '7'
  | 8 => '8' | 9 => '9' | 10 => 'A' | 11 => 'B' | 12 => 'C' | 13 => 'D' | 14 => 'E' | _ => 'F'

/-- A byte as `0x12`. -/
def hex8 (b : Byte) : List Char := ['0', 'x', hexDigit (b.toNat / 16), hexDigit (b.toNat % 16)]

/-- An address as `0x1234`. -/
def hex16 (w : Word) : List Char :=
  ['0', 'x', hexDigit (w.toNat / 4096), hexDigit (w.toNat / 256 % 16), hexDigit (w.toNat / 16 % 16),
    hexDigit (w.toNat % 16)]

/-- The operand column of R92. -/
def Operand.syntaxOf : Operand → List Char
  | .immediate d8 => '#' :: hex8 d8
  | .zeroPage zz => hex8 zz
  | .zeroPageX zz => hex8 zz ++ [',', 'X']
  | .zeroPageY zz => hex8 zz ++ [',', 'Y']
  | .absolute hhll => hex16 hhll
  | .absoluteX hhll => hex16 hhll ++ [',', 'X']
  | .absoluteY hhll => hex16 hhll ++ [',', 'Y']
  | .indirectX zz => '(' :: hex8 zz ++ [',', 'X', ')']
  | .indirectY zz => '(' :: hex8 zz ++ [')', ',', 'Y']

/-- LDA with an operand. -/
def ldaText (o : Operand) : List Char := ['L', 'D', 'A', ' '] ++ o.syntaxOf

/-- STA with an operand. -/
def staText (o : Operand) : List Char := ['S', 'T', 'A', ' '] ++ o.syntaxOf

/-- The text of an instruction; none for an unknown opcode. -/
def Instr.text : Instr → Option (List Char)
  | .ldaImm d8 => some (ldaText (.immediate d8))
  | .ldaZp zz => some (ldaText (.zeroPage zz))
  | .ldaZpX zz => some (ldaText (.zeroPageX zz))
  | .ldaAbs hhll => some (ldaText (.absolute hhll))
  | .ldaAbsX hhll => some (ldaText (.absoluteX hhll))
  | .ldaAbsY hhll => some (ldaText (.absoluteY hhll))
  | .ldaIndX zz => some (ldaText (.indirectX zz))
  | .ldaIndY zz => some (ldaText (.indirectY zz))
  | .staZp zz => some (staText (.zeroPage zz))
  | .staZpX zz => some (staText (.zeroPageX zz))
  | .staAbs hhll => some (staText (.absolute hhll))
  | .staAbsX hhll => some (staText (.absoluteX hhll))
  | .staAbsY hhll => some (staText (.absoluteY hhll))
  | .staIndX zz => some (staText (.indirectX zz))
  | .staIndY zz => some (staText (.indirectY zz))
  | .tax => some ['T', 'A', 'X']
  | .txs => some ['T', 'X', 'S']
  | .tsx => some ['T', 'S', 'X']
  | .inx => some ['I', 'N', 'X']
  | .pha => some ['P', 'H', 'A']
  | .pla => some ['P', 'L', 'A']
  | .php => some ['P', 'H', 'P']
  | .plp => some ['P', 'L', 'P']
  | .nop => some ['N', 'O', 'P']
  | .unknown _ => none

end Sys2Proof
end

