-- ==== Sys2Proof/Tests/Slice0.lean ====
section
/-! SUPPORT. The model's own tests: well-formedness, a decoding for every constructor, steps on small states,
and a witness for the hypotheses of every statement that has some. Expected results come from the spec:
the rule or the test vector (spec/95_test_vectors.md, "TV") is named where a test stands. -/

namespace Sys2Proof.Tests

open Sys2Proof.Machine

/-- A Running state with pc 0x8000, P 0x00, SP 0xFF, and the given bytes from 0x8000. -/
def prog (bs : List Byte) : State :=
  State.placeBytes { State.reset with pc := 0x8000, runState := .running } 0x8000 bs

/-- The next state, if there is one. -/
def nextOf (s : State) : Option State :=
  match step s with
  | .next t => some t
  | .fault _ => none
  | .refused _ => none

/-! ## Well-formedness (R88, R89) -/

theorem test_wf_refuses_table_byte_as_unknown : (Instr.unknown 0xA9).wf = false := by decide

theorem test_wf_accepts_0x00_as_unknown : (Instr.unknown 0x00).wf = true := by decide

/-! ## Decoding: a word of every constructor, from the encodings of R84 and R121-R190 -/

theorem test_decode_ldaImm : decode [0xA9, 0x80] = .ok (.ldaImm 0x80, []) := by decide

theorem test_decode_ldaZp : decode [0xA5, 0x10] = .ok (.ldaZp 0x10, []) := by decide

theorem test_decode_ldaZpX : decode [0xB5, 0xF0] = .ok (.ldaZpX 0xF0, []) := by decide

theorem test_decode_ldaAbs : decode [0xAD, 0x34, 0x12] = .ok (.ldaAbs 0x1234, []) := by decide

theorem test_decode_ldaAbsX : decode [0xBD, 0xF0, 0x12] = .ok (.ldaAbsX 0x12F0, []) := by decide

theorem test_decode_ldaAbsY : decode [0xB9, 0xFE, 0xFF] = .ok (.ldaAbsY 0xFFFE, []) := by decide

theorem test_decode_ldaIndX : decode [0xA1, 0xA5] = .ok (.ldaIndX 0xA5, []) := by decide

theorem test_decode_ldaIndY : decode [0xB1, 0x20] = .ok (.ldaIndY 0x20, []) := by decide

theorem test_decode_staZp : decode [0x85, 0xFF] = .ok (.staZp 0xFF, []) := by decide

theorem test_decode_staZpX : decode [0x95, 0x10] = .ok (.staZpX 0x10, []) := by decide

theorem test_decode_staAbs : decode [0x8D, 0xFC, 0xFF] = .ok (.staAbs 0xFFFC, []) := by decide

theorem test_decode_staAbsX : decode [0x9D, 0x00, 0x02] = .ok (.staAbsX 0x0200, []) := by decide

theorem test_decode_staAbsY : decode [0x99, 0xFF, 0x01] = .ok (.staAbsY 0x01FF, []) := by decide

theorem test_decode_staIndX : decode [0x81, 0xA5] = .ok (.staIndX 0xA5, []) := by decide

theorem test_decode_staIndY : decode [0x91, 0xFF] = .ok (.staIndY 0xFF, []) := by decide

theorem test_decode_tax : decode [0xAA] = .ok (.tax, []) := by decide

theorem test_decode_txs : decode [0x9A] = .ok (.txs, []) := by decide

theorem test_decode_tsx : decode [0xBA] = .ok (.tsx, []) := by decide

theorem test_decode_inx : decode [0xE8] = .ok (.inx, []) := by decide

theorem test_decode_pha : decode [0x48] = .ok (.pha, []) := by decide

theorem test_decode_pla : decode [0x68] = .ok (.pla, []) := by decide

theorem test_decode_php : decode [0x08] = .ok (.php, []) := by decide

theorem test_decode_plp : decode [0x28] = .ok (.plp, []) := by decide

theorem test_decode_nop : decode [0xEA] = .ok (.nop, []) := by decide

theorem test_decode_unknown : decode [0x00] = .ok (.unknown 0x00, []) := by decide

theorem test_decode_leaves_the_rest : decode [0x89, 0x10] = .ok (.unknown 0x89, [0x10]) := by decide

theorem test_decode_refuses_empty : decode [] = .error .noOpcode := by decide

theorem test_decode_refuses_missing_operand : decode [0xAD, 0x34] = .error (.missingOperand 0xAD) := by
  decide

theorem test_decode_table_word : decodeTableWord 24 0x1234AD = some (.ldaAbs 0x1234) := by decide

theorem test_decode_table_word_without_operand_bits : decodeTableWord 8 0x85 = some (.staZp 0x00) := by
  decide

theorem test_with_fetch_word :
    (nextOf (State.reset.withFetchWord 16 0x80A9)).map (fun t => (t.a, t.p, t.pc)) =
      some (0x80, 0x80, 0x0002) := by decide

/-- From a state whose pc is the sentinel the instruction goes to the load address (R240, R233). -/
theorem test_with_fetch_word_at_sentinel :
    (nextOf (State.withFetchWord { State.reset with pc := 0xFFFF } 8 0xE8)).map (fun t => (t.x, t.pc)) =
      some (0x01, 0x8001) := by decide

/-- The two texts that R92 gives for a byte and an address of the same value. -/
theorem test_text : (Instr.ldaAbs 0x0012).text = some ['L', 'D', 'A', ' ', '0', 'x', '0', '0', '1', '2'] ∧
    (Instr.ldaIndX 0x12).text = some ['L', 'D', 'A', ' ', '(', '0', 'x', '1', '2', ',', 'X', ')'] := by
  decide

/-! ## Steps of LDA (TV 2.5): A, P, pc after -/

/-- A, P and pc after one step. -/
def loadResult (s : State) : Option (Byte × Byte × Word) := (nextOf s).map fun t => (t.a, t.p, t.pc)

/-- TV 2.5, corner. -/
theorem test_ldaImm_zero :
    loadResult ({ prog [0xA9, 0x00] with p := 0x7F } : State) = some (0x00, 0x7F, 0x8002) := by decide

theorem test_ldaImm_7F :
    loadResult ({ prog [0xA9, 0x7F] with p := 0xFF } : State) = some (0x7F, 0x7D, 0x8002) := by decide

theorem test_ldaZp :
    loadResult ((prog [0xA5, 0x10]).writeByte 0x0010 0xC3 : State) = some (0xC3, 0x80, 0x8002) := by decide

theorem test_ldaZpX_wraps :
    loadResult ({ ((prog [0xB5, 0xF0]).writeByte 0x0010 0x42).writeByte 0x0110 0x99 with x := 0x20 } : State) = some (0x42, 0x00, 0x8002) := by decide

theorem test_ldaAbs :
    loadResult ({ prog [0xAD, 0x34, 0x12] with p := 0x01 } : State) = some (0x00, 0x03, 0x8003) := by decide

theorem test_ldaAbsX :
    loadResult ({ (prog [0xBD, 0xF0, 0x12]).writeByte 0x1310 0xFF with x := 0x20 } : State) = some (0xFF, 0x80, 0x8003) := by decide

theorem test_ldaAbsY_wraps :
    loadResult ({ (prog [0xB9, 0xFF, 0xFF]).writeByte 0x0000 0x07 with y := 0x01 } : State) = some (0x07, 0x00, 0x8003) := by decide

theorem test_ldaIndX_pointer_wraps :
    loadResult ({ ((((prog [0xA1, 0xA5]).writeByte 0x00FF 0x34).writeByte 0x0000 0x12).writeByte 0x0100 0x55).writeByte 0x1234 0x99 with x := 0x5A } : State) = some (0x99, 0x80, 0x8002) := by decide

theorem test_ldaIndY :
    loadResult ({ ((prog [0xB1, 0x20]).writeByte 0x0021 0x30).writeByte 0x3005 0x01 with y := 0x05 } : State) = some (0x01, 0x00, 0x8002) := by decide

/-! ## Steps of STA (TV 2.6): P, pc and the byte stored -/

/-- P, pc and the byte at `a` after one step. -/
def storeResult (a : Word) (s : State) : Option (Byte × Word × Byte) :=
  (nextOf s).map fun t => (t.p, t.pc, t.readByte a)

theorem test_staZp :
    storeResult 0x00FF ({ prog [0x85, 0xFF] with a := 0x5A, p := 0xC3 } : State) = some (0xC3, 0x8002, 0x5A) := by decide

theorem test_staZpX_wraps :
    storeResult 0x0001 ({ prog [0x95, 0xFF] with a := 0x5A, p := 0xC3, x := 0x02 } : State) = some (0xC3, 0x8002, 0x5A) := by decide

theorem test_staAbs :
    storeResult 0xFFFC ({ prog [0x8D, 0xFC, 0xFF] with a := 0x5A, p := 0xC3 } : State) = some (0xC3, 0x8003, 0x5A) := by decide

theorem test_staAbsX_wraps :
    storeResult 0x0000 ({ prog [0x9D, 0xFF, 0xFF] with a := 0x5A, p := 0xC3, x := 0x01 } : State) = some (0xC3, 0x8003, 0x5A) := by decide

theorem test_staAbsY :
    storeResult 0x0200 ({ prog [0x99, 0xFF, 0x01] with a := 0x5A, p := 0xC3, y := 0x01 } : State) = some (0xC3, 0x8003, 0x5A) := by decide

theorem test_staIndX :
    storeResult 0x0300 ({ (prog [0x81, 0x00]).writeByte 0x0001 0x03 with a := 0x5A, p := 0xC3 } : State) = some (0xC3, 0x8002, 0x5A) := by decide

theorem test_staIndY :
    storeResult 0x0308 ({ ((prog [0x91, 0x00]).writeByte 0x0000 0xF8).writeByte 0x0001 0x02 with a := 0x5A, p := 0xC3, y := 0x10 } : State) = some (0xC3, 0x8002, 0x5A) := by decide

/-! ## Steps of the transfers, INX and the stack instructions (TV 2.7, 2.8): A, X, SP, P after -/

/-- A, X, SP and P after one step. -/
def regResult (s : State) : Option (Byte × Byte × Byte × Byte) :=
  (nextOf s).map fun t => (t.a, t.x, t.sp, t.p)

theorem test_tax_zero :
    regResult ({ prog [0xAA] with x := 0x55, p := 0x80 } : State) = some (0x00, 0x00, 0xFF, 0x02) := by decide

theorem test_tax_negative :
    regResult ({ prog [0xAA] with a := 0x80, p := 0x02 } : State) = some (0x80, 0x80, 0xFF, 0x80) := by decide

theorem test_txs :
    regResult (prog [0x9A] : State) = some (0x00, 0x00, 0x00, 0x00) := by decide

theorem test_tsx_zero :
    regResult ({ prog [0xBA] with sp := 0x00, x := 0x12, p := 0x80 } : State) = some (0x00, 0x00, 0x00, 0x80) := by decide

theorem test_inx_wraps :
    regResult ({ prog [0xE8] with x := 0xFF, p := 0x80 } : State) = some (0x00, 0x00, 0xFF, 0x02) := by decide

theorem test_inx_no_overflow :
    regResult ({ prog [0xE8] with x := 0x7F, p := 0x01 } : State) = some (0x00, 0x80, 0xFF, 0x81) := by decide

theorem test_pha_flags :
    regResult ({ prog [0x48] with a := 0x90, sp := 0x00 } : State) = some (0x90, 0x00, 0xFF, 0x80) := by decide

theorem test_pha_stores :
    storeResult 0x0100 ({ prog [0x48] with a := 0x90, sp := 0x00 } : State) = some (0x80, 0x8001, 0x90) := by decide

theorem test_pla_wraps :
    regResult ((prog [0x68]).writeByte 0x0100 0x80 : State) = some (0x80, 0x00, 0x00, 0x80) := by decide

theorem test_pla_zero :
    regResult ({ prog [0x68] with sp := 0xFE, p := 0x80, a := 0x01 } : State) = some (0x00, 0x00, 0xFF, 0x02) := by decide

theorem test_php_stores_verbatim :
    storeResult 0x0110 ({ prog [0x08] with p := 0xCF, sp := 0x10 } : State) = some (0xCF, 0x8001, 0xCF) := by decide

theorem test_php_sp :
    regResult ({ prog [0x08] with p := 0xCF, sp := 0x10 } : State) = some (0x00, 0x00, 0x0F, 0xCF) := by decide

theorem test_plp_loads_b0_b1 :
    regResult ({ (prog [0x28]).writeByte 0x01FF 0x30 with sp := 0xFE } : State) = some (0x00, 0x00, 0xFF, 0x30) := by decide

/-! ## NOP, unknown opcodes, the sentinel and the top of memory (TV 2.9, 2.10) -/

theorem test_nop : nextOf (prog [0xEA]) = some { prog [0xEA] with pc := 0x8001 } := by decide

theorem test_unknown_A2 :
    nextOf (prog [0xA2]) = some { prog [0xA2] with pc := 0x8001, diag := [⟨0x8000, 0xA2⟩] } := by decide

theorem test_sentinel_halts :
    nextOf { prog [] with pc := 0xFFFF } = some { prog [] with pc := 0xFFFF, runState := .halted } := by
  decide

theorem test_no_step_in_reset : nextOf State.reset = none := by decide

theorem test_no_step_in_halted : nextOf { prog [0xEA] with runState := .halted } = none := by decide

/-- 0xA9 at 0xFFFE takes its operand from 0xFFFF and leaves pc 0x0000 (TV 2.10). -/
theorem test_two_bytes_at_FFFE :
    loadResult { State.placeBytes (prog []) 0xFFFE [0xA9, 0x05] with pc := 0xFFFE } =
      some (0x05, 0x00, 0x0000) := by decide

/-- 0xAD at 0xFFFE takes its operand word from 0xFFFF and 0x0000 and leaves pc 0x0001 (TV 2.10). -/
theorem test_three_bytes_at_FFFE :
    loadResult { (State.placeBytes (prog []) 0xFFFE [0xAD, 0x34, 0x12]).writeByte 0x1234 0x80 with
      pc := 0xFFFE } = some (0x80, 0x80, 0x0001) := by decide

/-! ## Resolver, flags and memory bus (TV 2.4, 2.1, 2.2) -/

theorem test_resolver_zeroPageY :
    resolver .zeroPageY 0x8001 0x00 0x20 [(0x8001, 0xF0)] = (0x0010, 0x8002) := by decide

theorem test_resolver_absolute_at_top :
    resolver .absolute 0xFFFF 0x00 0x00 [(0x0000, 0x12), (0xFFFF, 0x34)] = (0x1234, 0x0001) := by decide

theorem test_flags : setFlag .V true 0x00 = 0x40 ∧ setFlag .Z false 0xFF = 0xFD ∧
    zeroNegative 0x7F 0x7F = 0x7D ∧ zeroNegative 0xFF 0x01 = 0x81 := by decide

theorem test_read_word_no_page_wrap :
    State.readWord { State.reset with mem := [(0x1200, 0x99), (0x12FF, 0x34), (0x1300, 0x12)] } 0x12FF =
      0x1234 := by decide

theorem test_write_zero_unlists : Memory.put [(5, 1), (7, 2)] 5 0x00 = [(7, 2)] := by decide

/-! ## Host commands (TV 2.10) -/

/-- The registers and vector bytes after loading nothing. -/
theorem test_load_nothing : State.new.loadProgram [] = .ok { State.new with
    pc := 0x8000, mem := [(0xFFFD, 0x80)] } := by decide

theorem test_reset_keeps_y_and_loads_vector :
    State.resetCommand { State.new with y := 0x33, mem := [(0xFFFD, 0x90)] } =
      { State.new with y := 0x33, mem := [(0xFFFD, 0x90)], sp := 0xFF, pc := 0x9000 } := by decide

theorem test_run_at_sentinel_returns : State.runLoop 2 (State.beginRun { State.new with pc := 0xFFFF }) =
    some { State.new with pc := 0xFFFF, runState := .halted } := by decide

/-! ## Witnesses: states and operands that meet the hypotheses of the statements -/

/-- A Running state with canonical, non-empty memory; the byte at pc is LDA Immediate. -/
def demo : State := prog [0xA9, 0x80]

theorem witness_DecodeInvertsEncode : (Instr.unknown 0x00).wf = true ∧ (Instr.staAbs 0x1234).wf = true := by
  decide

theorem witness_EncodeInvertsDecode : decode [0xBD, 0xF0, 0x12, 0xEA] = .ok (.ldaAbsX 0x12F0, [0xEA]) := by
  decide

theorem witness_LengthFollowsFromTheOpcode : decode [0x91, 0x00, 0x07] = .ok (.staIndY 0x00, [0x07]) ∧
    decode [0x02, 0x07] = .ok (.unknown 0x02, [0x07]) := by decide

theorem witness_SetFlagWritesExactlyItsBit : 7 < 8 := by decide

theorem witness_UpdateZNWritesZAndNOnly : Flag.V ≠ .Z ∧ Flag.V ≠ .N := by decide

/-- Canonical memory, and bytes outside the written word on both sides of the wrap. -/
theorem witness_WordAccessIsLittleEndian : Memory.wf demo.mem ∧ (0x0001 : Word) ≠ 0xFFFF ∧
    (0x0001 : Word) ≠ 0xFFFF + 1 := by decide

/-- Canonical memory, and another slot of page 1 that a push keeps. -/
theorem witness_StackStaysInPageOne : Memory.wf demo.mem ∧ (0x01FE : Word) ≠ stackAddress demo.sp := by
  decide

/-- Both ends of the stack pointer's range. -/
theorem witness_StackStaysInPageOne_ends : Memory.wf demo.mem ∧ demo.sp = 0xFF ∧
    Memory.wf ({ demo with sp := 0x00 } : State).mem ∧ ({ demo with sp := 0x00 } : State).sp = 0x00 := by
  decide

/-- The hypothesis of PushThenPopRestores, StaStoresAtTheAddress, PhaPushesAAndSetsZN and
PhpPushesPVerbatim. -/
theorem witness_canonical_memory : Memory.wf demo.mem ∧ demo.mem ≠ [] := by decide

theorem witness_NopOnlyAdvancesPC : (prog [0xEA]).runState = .running ∧ (prog [0xEA]).pc ≠ 0xFFFF ∧
    (prog [0xEA]).readByte (prog [0xEA]).pc = 0xEA := by decide

theorem witness_UnknownOpcodeOnlyLogs : (prog [0xA2]).runState = .running ∧ (prog [0xA2]).pc ≠ 0xFFFF ∧
    (lookup ((prog [0xA2]).readByte (prog [0xA2]).pc)).isNone = true := by decide

/-- A completed instruction, and one case of every implication of the frame. -/
theorem witness_RegisterAndFlagFrame : exec .txs demo = .next { demo with sp := 0x00 } ∧
    Instr.txs.writesA = false ∧ Instr.txs.writesX = false ∧ Instr.nop.writesSP = false ∧
    writesFlag .pha .C = false ∧ (∀ op, Instr.txs ≠ .unknown op) :=
  ⟨rfl, by decide, by decide, by decide, by decide, fun _ h => by cases h⟩

theorem witness_MemoryFrame : Memory.wf demo.mem ∧
    exec .pha demo = .next ((demo.push demo.a).updateZN demo.a) ∧
    storeOf .pha demo = some (0x01FF, demo.a) ∧ exec .tsx demo = .next { demo with x := 0xFF } ∧
    storeOf .tsx demo = none := ⟨by decide, rfl, by decide, rfl, rfl⟩

theorem witness_NoStepWritesY : step (prog [0xE8]) = .next ((prog [0xE8]).advancePC 1 |>.setX 1 |>.updateZN 1) :=
  rfl

theorem witness_OnlyPlpWritesTheOtherFlags : (nextOf (prog [0x08])).isSome = true ∧
    (prog [0x08]).fetch ≠ .plp ∧ Flag.I ≠ .Z ∧ Flag.I ≠ .N ∧ (prog [0x08]).fetch.appliesZN = false := by
  decide

/-- Both cases of the conclusion: an instruction other than PHP, and PHP with another address. -/
theorem witness_FlagsDoNotSteer : Memory.wf demo.mem ∧ demo.runState = .running ∧ demo.fetch ≠ .php ∧
    Memory.wf (prog [0x08]).mem ∧ (prog [0x08]).runState = .running ∧ (prog [0x08]).fetch = .php ∧
    (0x01FE : Word) ≠ stackAddress (prog [0x08]).sp := by decide

theorem witness_StepRunsDecodedInstruction : demo.runState = .running ∧ demo.pc ≠ 0xFFFF ∧
    decode [demo.readByte demo.pc, demo.readByte (demo.pc + 1), demo.readByte (demo.pc + 2)] =
      .ok (.ldaImm 0x80, [0x00]) := by decide

theorem witness_StepRefinesPseudocode : demo.runState = .running ∧ State.reset.runState ≠ .running := by
  decide

/-- One state for each of the three clauses. -/
theorem witness_SentinelHaltsBeforeAnyFetch :
    (({ demo with pc := 0xFFFF } : State).runState = .running ∧ ({ demo with pc := 0xFFFF } : State).pc = 0xFFFF) ∧
    ((nextOf { demo with pc := 0xFFFE }).isSome = true ∧ ({ demo with pc := 0xFFFE } : State).pc ≠ 0xFFFF) ∧
    ({ State.reset with pc := 0xFFFF } : State).pc = 0xFFFF := by decide

theorem witness_StepAdvancesPCByLength : demo.runState = .running ∧ demo.pc ≠ 0xFFFF ∧
    ({ demo with pc := 0xFFFE } : State).pc ≠ 0xFFFF := by decide

/-- LDA Absolute at 0xFFFE. -/
def straddling : State := { State.placeBytes (prog []) 0xFFFE [0xAD, 0x34, 0x12] with pc := 0xFFFE }

theorem witness_StraddlingLoadExecutesInFull : straddling.runState = .running ∧ straddling.pc = 0xFFFE ∧
    straddling.readByte 0xFFFE = 0xAD := by decide

/-- STA 0x8003 at 0x8000 stores where pc then points. -/
def selfModifying : State := { prog [0x8D, 0x03, 0x80] with a := 0xE8 }

theorem witness_StoreIsSeenByTheNextFetch : Memory.wf selfModifying.mem ∧ selfModifying.pc ≠ 0xFFFF ∧
    (nextOf selfModifying).map (fun t => (storeOf selfModifying.fetch { selfModifying with
      pc := selfModifying.pc + 1 } == some (t.pc, 0xE8))) = some true := by decide

/-- STA Absolute to 0xFFFC, and STA Absolute-X to 0xFFFD. -/
theorem witness_StoredVectorIsLoadedByReset : Memory.wf demo.mem ∧
    exec (.staAbs 0xFFFC) demo = .next (storeA (.absolute 0xFFFC) demo) ∧
    storeOf (.staAbs 0xFFFC) demo = some (0xFFFC, demo.a) ∧
    exec (.staAbsX 0xFFFD) demo = .next (storeA (.absoluteX 0xFFFD) demo) ∧
    storeOf (.staAbsX 0xFFFD) demo = some (0xFFFD, demo.a) :=
  ⟨by decide, rfl, rfl, rfl, by decide⟩

/-- A state that meets the invariant with a record in its log, and has a next state. -/
theorem witness_StepKeepsInvariant : State.Inv { prog [0xA2] with diag := [⟨0x7FFF, 0x00⟩] } ∧
    (nextOf { prog [0xA2] with diag := [⟨0x7FFF, 0x00⟩] }).isSome = true :=
  ⟨⟨by decide, by
    intro d hd
    cases List.mem_singleton.mp hd
    exact ⟨rfl, by decide⟩⟩, by decide⟩

theorem witness_HostCommandsKeepInvariant : State.Inv State.reset ∧
    State.reset.hostCommand (.writeMemory 0x0010 0x42) = .ok { State.reset with mem := [(0x0010, 0x42)] } :=
  ⟨⟨by decide, fun _ hd => by cases hd⟩, rfl⟩

theorem witness_ReachableStatesAreSafe : Reachable State.new.beginRun := .command .run .new rfl

/-- The longest program's bound, and an empty program. -/
theorem witness_LoadProgramWritesProgramAndVector : Memory.wf demo.mem ∧ ([] : List Byte).length ≤ 0x8000 ∧
    [(0xEA : Byte)].length ≤ 0x8000 ∧ (List.replicate 0x8000 (0xEA : Byte)).length ≤ 0x8000 :=
  ⟨by decide, by decide, by decide, Nat.le_of_eq List.length_replicate⟩

/-- One byte more than the bound. -/
theorem witness_CapacityErrorExactlyForOversizedPrograms : State.reset.runState ≠ .running ∧
    0x8000 < (List.replicate 0x8001 (0xEA : Byte)).length :=
  ⟨by decide, by rw [List.length_replicate]; decide⟩

theorem witness_BootReproducesTheLoadedProgram : [(0xA9 : Byte), 0x00].length ≤ 0x8000 ∧
    1 < [(0xA9 : Byte), 0x00].length ∧ 1 < 0x7FFC := by decide

theorem witness_RunStateMoves : (nextOf demo).isSome = true ∧
    State.reset.hostCommand .run = .ok State.reset.beginRun ∧
    State.reset.hostCommand (.writeY 0x01) = .ok (State.reset.setY 0x01) := ⟨by decide, rfl, rfl⟩

theorem witness_HostWritesBetweenRunsOnly : demo.runState = .running ∧ State.reset.runState ≠ .running ∧
    Memory.wf State.reset.mem := by decide

/-- A run that returns, for the direction from the returned state. -/
theorem witness_RunReturnsExactlyAtTheSentinel :
    State.RunReturns { State.reset with pc := 0xFFFE } { State.reset with
      pc := 0xFFFF, runState := .halted, diag := [⟨0xFFFE, 0x00⟩] } := ⟨3, by decide⟩

/-- The run of R239 from new(), which starts at pc 0x0000, and a run whose first step straddles. -/
theorem witness_RunReachesTheSentinelOrStraddles :
    State.new.beginRun.runState = .running ∧ State.new.beginRun.pc = 0x0000 ∧
      straddling.runState = .running ∧
      (nextOf straddling).map (fun u => (u.runState, u.pc)) = some (.running, 0x0001) := by decide

/-- A tail of one zero byte, at 0xFFFE. -/
theorem witness_UnknownTailRunsToTheSentinel :
    ∀ a : Word, (0xFFFE : Word).toNat ≤ a.toNat → a.toNat < 0xFFFF →
      lookup (State.readByte { State.reset with pc := 0xFFFE } a) = none := fun _ _ _ => rfl

end Sys2Proof.Tests
end

section
/-! SUPPORT. The two families with operands, LDA and STA, as one case each: a case split over `Instr` that
has twelve cases, and what each case executes. -/

namespace Sys2Proof.Machine

/-- `i` is the LDA instruction whose operand is `o`. -/
structure LoadsOperand (i : Instr) (o : Operand) : Prop where
  isLoad : i.isLoad = true
  mode : i.mode = o.mode
  exec_eq : ∀ s, exec i s = .next (loadA o s)

/-- `i` is the STA instruction whose operand is `o`. -/
structure StoresOperand (i : Instr) (o : Operand) : Prop where
  storeOf_eq : ∀ s, storeOf i s = some (effectiveAddress o s, s.a)
  mode : i.mode = o.mode
  exec_eq : ∀ s, exec i s = .next (storeA o s)

/-- Case split over the instructions with all LDA rows in one case and all STA rows in another; use it as
`cases i using instrFamilyCases`. -/
theorem instrFamilyCases {motive : Instr → Prop}
    (load : ∀ i o, LoadsOperand i o → motive i) (store : ∀ i o, StoresOperand i o → motive i)
    (tax : motive .tax) (txs : motive .txs) (tsx : motive .tsx) (inx : motive .inx)
    (pha : motive .pha) (pla : motive .pla) (php : motive .php) (plp : motive .plp)
    (nop : motive .nop) (unknown : ∀ op, motive (.unknown op)) (i : Instr) : motive i := by
  cases i with
  | ldaImm d => exact load _ (.immediate d) ⟨rfl, rfl, fun _ => rfl⟩
  | ldaZp d => exact load _ (.zeroPage d) ⟨rfl, rfl, fun _ => rfl⟩
  | ldaZpX d => exact load _ (.zeroPageX d) ⟨rfl, rfl, fun _ => rfl⟩
  | ldaAbs w => exact load _ (.absolute w) ⟨rfl, rfl, fun _ => rfl⟩
  | ldaAbsX w => exact load _ (.absoluteX w) ⟨rfl, rfl, fun _ => rfl⟩
  | ldaAbsY w => exact load _ (.absoluteY w) ⟨rfl, rfl, fun _ => rfl⟩
  | ldaIndX d => exact load _ (.indirectX d) ⟨rfl, rfl, fun _ => rfl⟩
  | ldaIndY d => exact load _ (.indirectY d) ⟨rfl, rfl, fun _ => rfl⟩
  | staZp d => exact store _ (.zeroPage d) ⟨fun _ => rfl, rfl, fun _ => rfl⟩
  | staZpX d => exact store _ (.zeroPageX d) ⟨fun _ => rfl, rfl, fun _ => rfl⟩
  | staAbs w => exact store _ (.absolute w) ⟨fun _ => rfl, rfl, fun _ => rfl⟩
  | staAbsX w => exact store _ (.absoluteX w) ⟨fun _ => rfl, rfl, fun _ => rfl⟩
  | staAbsY w => exact store _ (.absoluteY w) ⟨fun _ => rfl, rfl, fun _ => rfl⟩
  | staIndX d => exact store _ (.indirectX d) ⟨fun _ => rfl, rfl, fun _ => rfl⟩
  | staIndY d => exact store _ (.indirectY d) ⟨fun _ => rfl, rfl, fun _ => rfl⟩
  | tax => exact tax
  | txs => exact txs
  | tsx => exact tsx
  | inx => exact inx
  | pha => exact pha
  | pla => exact pla
  | php => exact php
  | plp => exact plp
  | nop => exact nop
  | unknown op => exact unknown op

/-- No instruction faults and none is refused (R200). -/
theorem exec_completes (i : Instr) (s : State) : ∃ t, exec i s = .next t := by
  cases i using instrFamilyCases with
  | load i o h => exact ⟨_, h.exec_eq s⟩
  | store i o h => exact ⟨_, h.exec_eq s⟩
  | tax | txs | tsx | inx | pha | pla | php | plp | nop | unknown op => exact ⟨_, rfl⟩

end Sys2Proof.Machine
end

section
/-! SUPPORT. The register and flag frame of an execution, field by field. -/

namespace Sys2Proof.Machine

/-- `ZN` keeps the flags other than Z and N. -/
theorem getFlag_zeroNegative_of_ne {f : Flag} (hz : f ≠ .Z) (hn : f ≠ .N) (v p : Byte) :
    getFlag f (zeroNegative v p) = getFlag f p := by
  rw [getFlag_zeroNegative, if_neg hn, if_neg hz]

/-- An instruction that applies `ZN` keeps the flags it does not write. -/
theorem getFlag_zeroNegative_of_not_writesFlag {i : Instr} (hi : i.appliesZN = true) (v p : Byte)
    (f : Flag) (hf : writesFlag i f = false) : getFlag f (zeroNegative v p) = getFlag f p := by
  obtain ⟨-, hz, hn⟩ : i ≠ .plp ∧ f ≠ .Z ∧ f ≠ .N := by simpa [writesFlag, hi] using hf
  exact getFlag_zeroNegative_of_ne hz hn v p

/-- What `i`, executed in `s` with result `t`, may write of the registers, the flags, the log, the run
state and pc. A field may be left out
where it holds by definition: there `t` is `s`. -/
structure ExecFrame (i : Instr) (s t : State) : Prop where
  y : t.y = s.y := by rfl
  a : i.writesA = false → t.a = s.a := by exact fun _ => rfl
  x : i.writesX = false → t.x = s.x := by exact fun _ => rfl
  sp : i.writesSP = false → t.sp = s.sp := by exact fun _ => rfl
  flag : ∀ f, writesFlag i f = false → getFlag f t.p = getFlag f s.p := by exact fun _ _ => rfl
  diag : (∀ op, i ≠ .unknown op) → t.diag = s.diag := by exact fun _ => rfl
  runState : t.runState = s.runState := by rfl
  pc : t.pc = s.pc + BitVec.ofNat 16 i.mode.width

/-- Advancing pc past no operand bytes. -/
theorem pc_eq_add_width_noneAddressing (w : Word) :
    w = w + BitVec.ofNat 16 (Mode.width .noneAddressing) := by
  simp [Mode.width]

theorem LoadsOperand.frame {i : Instr} {o : Operand} (h : LoadsOperand i o) (s : State) :
    ExecFrame i s (loadA o s) := by
  have hzn : i.appliesZN = true := by simp [Instr.appliesZN, h.isLoad]
  rw [loadA_eq]
  exact {
    a := fun ha => by simp [Instr.writesA, h.isLoad] at ha
    flag := getFlag_zeroNegative_of_not_writesFlag hzn _ _
    pc := by rw [h.mode] }

theorem StoresOperand.frame {i : Instr} {o : Operand} (h : StoresOperand i o) (s : State) :
    ExecFrame i s (storeA o s) := by
  rw [storeA_eq]
  exact { pc := by rw [h.mode] }

/-- Every execution keeps to the frame: each case names only the fields its instruction writes. -/
theorem exec_frame {i : Instr} {s t : State} (h : exec i s = .next t) : ExecFrame i s t := by
  have hpc := pc_eq_add_width_noneAddressing s.pc
  cases i using instrFamilyCases with
  | load i o hi => cases (hi.exec_eq s).symm.trans h; exact hi.frame s
  | store i o hi => cases (hi.exec_eq s).symm.trans h; exact hi.frame s
  | tax => cases h; exact { pc := hpc, x := nofun, flag := getFlag_zeroNegative_of_not_writesFlag rfl _ _ }
  | txs => cases h; exact { pc := hpc, sp := nofun }
  | tsx => cases h; exact { pc := hpc, x := nofun }
  | inx => cases h; exact { pc := hpc, x := nofun, flag := getFlag_zeroNegative_of_not_writesFlag rfl _ _ }
  | pha => cases h; exact { pc := hpc, sp := nofun, flag := getFlag_zeroNegative_of_not_writesFlag rfl _ _ }
  | pla =>
    cases h
    exact { pc := hpc, a := nofun, sp := nofun, flag := getFlag_zeroNegative_of_not_writesFlag rfl _ _ }
  | php => cases h; exact { pc := hpc, sp := nofun }
  | plp => cases h; exact { pc := hpc, sp := nofun, flag := nofun }
  | nop => cases h; exact { pc := hpc }
  | unknown op => cases h; exact { pc := hpc, diag := fun hne => absurd rfl (hne op) }

end Sys2Proof.Machine

open Sys2Proof Sys2Proof.Machine

/-- Settles O24: the frame of every execution, written out. -/
theorem registerAndFlagFrame : Obligations.RegisterAndFlagFrame := by
  intro i s t h
  have hf := exec_frame h
  exact ⟨hf.y, hf.a, hf.x, hf.sp, hf.flag, hf.diag, hf.runState, hf.pc⟩

/-- Settles O26: a halt keeps Y, and so does every execution. -/
theorem noStepWritesY : Obligations.NoStepWritesY := by
  intro s t h
  obtain ⟨-, ⟨-, rfl⟩ | ⟨-, hx⟩⟩ := step_next h
  · rfl
  · exact (exec_frame hx).y

/-- Settles O27: outside PLP only `ZN` writes flags, and where it is not applied P keeps all eight. -/
theorem onlyPlpWritesTheOtherFlags : Obligations.OnlyPlpWritesTheOtherFlags := by
  intro s t h hplp
  obtain ⟨-, ⟨-, rfl⟩ | ⟨-, hx⟩⟩ := step_next h
  · exact ⟨fun _ _ _ => rfl, fun _ => rfl⟩
  · have hflag := (exec_frame hx).flag
    exact ⟨fun f hz hn => hflag f (by simp [writesFlag, hplp, hz, hn]),
      fun hi => byte_eq_of_getFlag fun f => hflag f (by simp [writesFlag, hplp, hi])⟩

/-- Settles O34: only the sentinel check halts, since no execution writes the run state. -/
theorem sentinelHaltsBeforeAnyFetch : Obligations.SentinelHaltsBeforeAnyFetch := by
  intro s
  refine ⟨step_sentinel, fun t h hpc => ?_, fun hpc => ⟨1, ?_⟩⟩
  · obtain ⟨hr, ⟨hs, -⟩ | ⟨-, hx⟩⟩ := step_next h
    · exact absurd hs hpc
    · exact (exec_frame hx).runState.trans hr
  · have hstep : step s.beginRun = .next s.beginRun.halt := step_sentinel rfl hpc
    calc State.runLoop 1 s.beginRun = State.runLoop 0 s.beginRun.halt := State.runLoop_next hstep 0
      _ = some { s with runState := .halted } := State.runLoop_stop (by simp) 0
end

section
/-! SUPPORT. What an execution does when P is another byte: the operands and effective addresses do not
read P, so the results differ in P alone, and for PHP in the pushed byte. -/

namespace Sys2Proof.Machine

/-- No effective address reads P (R27, R90). -/
@[simp] theorem effectiveAddress_setP (o : Operand) (s : State) (q : Byte) :
    effectiveAddress o (s.setP q) = effectiveAddress o s := by
  cases o <;> rfl

/-- No operand byte comes from P. -/
@[simp] theorem operandByte_setP (o : Operand) (ea : Word) (s : State) (q : Byte) :
    operandByte o ea (s.setP q) = operandByte o ea s := by
  cases o <;> rfl

theorem loadA_setP (o : Operand) (s : State) (q : Byte) :
    loadA o (s.setP q) =
      (loadA o s).setP (zeroNegative (operandByte o (effectiveAddress o s) s) q) := by
  rw [loadA_eq, loadA_eq, effectiveAddress_setP, operandByte_setP]
  rfl

theorem storeA_setP (o : Operand) (s : State) (q : Byte) :
    storeA o (s.setP q) = (storeA o s).setP q := by
  rw [storeA_eq, storeA_eq, effectiveAddress_setP]
  rfl

/-- With another status byte an instruction other than PHP does the same to everything but P. -/
theorem exec_setP {i : Instr} {s t : State} (hphp : i ≠ .php) (h : exec i s = .next t) (q : Byte) :
    ∃ q', exec i (s.setP q) = .next (t.setP q') := by
  cases i using instrFamilyCases with
  | load i o hi =>
    cases (hi.exec_eq s).symm.trans h
    exact ⟨_, (hi.exec_eq _).trans (congrArg _ (loadA_setP o s q))⟩
  | store i o hi =>
    cases (hi.exec_eq s).symm.trans h
    exact ⟨_, (hi.exec_eq _).trans (congrArg _ (storeA_setP o s q))⟩
  | php => exact absurd rfl hphp
  | tax | txs | tsx | inx | pha | pla | plp | nop | unknown op => cases h; exact ⟨_, rfl⟩

/-- Two pushes from states that differ in P agree on every byte but the pushed one. -/
theorem readByte_push_setP {s : State} (hm : Memory.wf s.mem) (q v w : Byte) {b : Word}
    (hb : b ≠ stackAddress s.sp) : ((s.setP q).push w).readByte b = (s.push v).readByte b := by
  rw [State.readByte_push hm, State.readByte_push (s := s.setP q) hm, State.setP_sp, if_neg hb, if_neg hb,
    State.setP_readByte]

/-- `t` and `u` agree on everything but P and memory, and on every byte but the one at `slot` where `i`
is PHP. -/
def AgreeButP (i : Instr) (slot : Word) (t u : State) : Prop :=
  u = { t with p := u.p, mem := u.mem } ∧
    ∀ b, i ≠ .php ∨ b ≠ slot → u.readByte b = t.readByte b

/-- States that differ in P alone agree on everything else. -/
theorem agreeButP_setP (i : Instr) (slot : Word) (t : State) (q : Byte) :
    AgreeButP i slot t (t.setP q) := ⟨rfl, fun _ _ => rfl⟩

/-- Executions from states that differ in P both complete and agree on everything but P and PHP's byte. -/
theorem exec_agreeButP (i : Instr) {s : State} (hm : Memory.wf s.mem) (q : Byte) :
    ∃ t u, exec i s = .next t ∧ exec i (s.setP q) = .next u ∧
      AgreeButP i (stackAddress s.sp) t u := by
  by_cases hphp : i = .php
  · subst hphp
    exact ⟨_, _, rfl, rfl, rfl, fun b hb => readByte_push_setP hm q _ _ (hb.resolve_left (absurd rfl))⟩
  · obtain ⟨t, ht⟩ := exec_completes i s
    obtain ⟨q', hu⟩ := exec_setP hphp ht q
    exact ⟨t, _, ht, hu, agreeButP_setP i _ t q'⟩

end Sys2Proof.Machine

open Sys2Proof Sys2Proof.Machine

/-- Settles O28: at the sentinel both steps halt; elsewhere both fetch the same instruction, whose two
executions agree. -/
theorem flagsDoNotSteer : Obligations.FlagsDoNotSteer := by
  intro s q hm hr
  by_cases hpc : s.pc = Config.sentinel
  · exact ⟨_, _, step_sentinel hr hpc, step_sentinel (s := s.setP q) hr hpc,
      agreeButP_setP _ _ s.halt q⟩
  · obtain ⟨t, u, ht, hu, hag⟩ := exec_agreeButP s.fetch (s := s.advancePC 1) hm q
    exact ⟨t, u, (step_exec hr hpc).trans ht, (step_exec (s := s.setP q) hr hpc).trans hu, hag⟩
end

section
/-! SUPPORT. The bits of the status byte that are flags. -/

namespace Sys2Proof.Machine

/-- The mask of a flag is its bit (R30). -/
theorem mask_eq_shiftLeft (f : Flag) : f.mask = 1#8 <<< f.bit := by
  cases f <;> rfl

/-- Different flags are different bits (R26). -/
theorem bit_inj {f g : Flag} : g.bit = f.bit ↔ g = f := by
  refine ⟨fun h => ?_, congrArg _⟩
  simpa [h, mask_bit] using mask_bit f g

/-- Every bit of P is a flag (R26). -/
theorem exists_bit_eq {k : Nat} (hk : k < 8) : ∃ f : Flag, f.bit = k := by
  match k, hk with
  | 0, _ => exact ⟨.C, rfl⟩
  | 1, _ => exact ⟨.Z, rfl⟩
  | 2, _ => exact ⟨.I, rfl⟩
  | 3, _ => exact ⟨.D, rfl⟩
  | 4, _ => exact ⟨.B0, rfl⟩
  | 5, _ => exact ⟨.B1, rfl⟩
  | 6, _ => exact ⟨.V, rfl⟩
  | 7, _ => exact ⟨.N, rfl⟩

/-- The bits of a status byte after `SetFlag` (R31). -/
theorem getLsbD_setFlag (f : Flag) (b : Bool) (p : Byte) {k : Nat} (hk : k < 8) :
    (setFlag f b p).getLsbD k = if k = f.bit then b else p.getLsbD k := by
  obtain ⟨g, rfl⟩ := exists_bit_eq hk
  simp only [← getFlag_eq_bit, getFlag_setFlag, bit_inj]

end Sys2Proof.Machine

open Sys2Proof Sys2Proof.Machine

/-- Settles O6: every bit of P is some flag, and `SetFlag` writes its own flag only. -/
theorem setFlagWritesExactlyItsBit : Obligations.SetFlagWritesExactlyItsBit :=
  fun f b p => ⟨mask_eq_shiftLeft f, getFlag_eq_bit f p, fun _ hk => getLsbD_setFlag f b p hk⟩

/-- Settles O7: the flags of `zeroNegative`, and that `updateZN` writes P alone. -/
theorem updateZNWritesZAndNOnly : Obligations.UpdateZNWritesZAndNOnly := by
  intro s v
  refine ⟨?_, ?_, fun f hz hn => getFlag_zeroNegative_of_ne hz hn v s.p, rfl⟩
  · simp [getFlag_zeroNegative]
  · simp [getFlag_zeroNegative]
end

section
/-! SUPPORT. What a host command is answered, by run state and command, and that each keeps the
invariant. -/

namespace Sys2Proof.Machine.State

/-- During a run every host command is refused. -/
theorem hostCommand_running {s : State} (h : s.runState = .running) (c : HostCommand) :
    s.hostCommand c = .error .runInProgress := if_pos h

/-- A host command that is carried out was issued between runs. -/
theorem runState_ne_running_of_hostCommand {s t : State} {c : HostCommand}
    (h : s.hostCommand c = .ok t) : s.runState ≠ .running := fun hr => by
  rw [hostCommand_running hr] at h
  cases h

section
variable {s : State} (h : s.runState ≠ .running)
include h

theorem hostCommand_new : s.hostCommand .new = .ok State.new := if_neg h
theorem hostCommand_loadProgram (bs : List Byte) :
    s.hostCommand (.loadProgram bs) = s.loadProgram bs := if_neg h
theorem hostCommand_reset : s.hostCommand .reset = .ok s.resetCommand := if_neg h
theorem hostCommand_run : s.hostCommand .run = .ok s.beginRun := if_neg h
theorem hostCommand_writeA (v : Byte) : s.hostCommand (.writeA v) = .ok (s.setA v) := if_neg h
theorem hostCommand_writeX (v : Byte) : s.hostCommand (.writeX v) = .ok (s.setX v) := if_neg h
theorem hostCommand_writeY (v : Byte) : s.hostCommand (.writeY v) = .ok (s.setY v) := if_neg h
theorem hostCommand_writeP (v : Byte) : s.hostCommand (.writeP v) = .ok (s.setP v) := if_neg h
theorem hostCommand_writeSP (v : Byte) : s.hostCommand (.writeSP v) = .ok (s.setSP v) := if_neg h
theorem hostCommand_writePC (w : Word) : s.hostCommand (.writePC w) = .ok (s.setPC w) := if_neg h
theorem hostCommand_writeMemory (a : Word) (v : Byte) :
    s.hostCommand (.writeMemory a v) = .ok (s.writeByte a v) := if_neg h

end

/-- The invariant speaks of memory and the log only. -/
theorem Inv.of_mem_diag {s t : State} (h : s.Inv) (hm : Memory.wf t.mem) (hd : t.diag = s.diag) : t.Inv :=
  ⟨hm, hd ▸ h.diag⟩

theorem new_inv : State.new.Inv := ⟨Memory.wf_nil, nofun⟩

theorem loadProgram_inv {s t : State} {bs : List Byte} (hs : s.Inv) (h : s.loadProgram bs = .ok t) :
    t.Inv := by
  obtain ⟨-, rfl⟩ := loadProgram_ok h
  exact hs.of_mem_diag (writeWord_wf (placeBytes_wf bs s _ hs.canonical) _ _) rfl

/-- Every host command keeps the invariant: only new, load_program and a memory write touch memory. -/
theorem hostCommand_inv {s t : State} {c : HostCommand} (hs : s.Inv) (h : s.hostCommand c = .ok t) :
    t.Inv := by
  have hr := runState_ne_running_of_hostCommand h
  cases c with
  | new => cases (hostCommand_new hr).symm.trans h; exact new_inv
  | loadProgram bs => exact loadProgram_inv hs ((hostCommand_loadProgram hr bs).symm.trans h)
  | writeMemory a v =>
    cases (hostCommand_writeMemory hr a v).symm.trans h
    exact hs.of_mem_diag (writeByte_wf hs.canonical a v) rfl
  | reset => cases (hostCommand_reset hr).symm.trans h; exact hs.of_mem_diag hs.canonical rfl
  | run => cases (hostCommand_run hr).symm.trans h; exact hs.of_mem_diag hs.canonical rfl
  | writeA v => cases (hostCommand_writeA hr v).symm.trans h; exact hs.of_mem_diag hs.canonical rfl
  | writeX v => cases (hostCommand_writeX hr v).symm.trans h; exact hs.of_mem_diag hs.canonical rfl
  | writeY v => cases (hostCommand_writeY hr v).symm.trans h; exact hs.of_mem_diag hs.canonical rfl
  | writeP v => cases (hostCommand_writeP hr v).symm.trans h; exact hs.of_mem_diag hs.canonical rfl
  | writeSP v => cases (hostCommand_writeSP hr v).symm.trans h; exact hs.of_mem_diag hs.canonical rfl
  | writePC w => cases (hostCommand_writePC hr w).symm.trans h; exact hs.of_mem_diag hs.canonical rfl

end Sys2Proof.Machine.State

open Sys2Proof Sys2Proof.Machine Sys2Proof.Machine.State

/-- Settles O40, by cases on the command. -/
theorem hostCommandsKeepInvariant : Obligations.HostCommandsKeepInvariant :=
  fun _ _ _ => hostCommand_inv

/-- Settles O49: a command is refused in Running and is otherwise the one update it names. -/
theorem hostWritesBetweenRunsOnly : Obligations.HostWritesBetweenRunsOnly := by
  intro s
  refine ⟨fun hr c t h => runState_ne_running_of_hostCommand h hr, fun hr v w => ?_⟩
  exact ⟨hostCommand_writeA hr v, hostCommand_writeX hr v, hostCommand_writeY hr v,
    hostCommand_writeP hr v, hostCommand_writeSP hr v, hostCommand_writePC hr w,
    fun hm => ⟨_, hostCommand_writeMemory hr w v, stored_put hm w v⟩⟩
end

section
/-! SUPPORT. What an execution does to memory and to the log, and that every step keeps the invariant. -/

namespace Sys2Proof.Machine

/-- A load stores nothing (R120). -/
theorem storeOf_of_isLoad {i : Instr} (hi : i.isLoad = true) (s : State) : storeOf i s = none := by
  cases i with
  | ldaImm | ldaZp | ldaZpX | ldaAbs | ldaAbsX | ldaAbsY | ldaIndX | ldaIndY => rfl
  | staZp | staZpX | staAbs | staAbsX | staAbsY | staIndX | staIndY
  | tax | txs | tsx | inx | pha | pla | php | plp | nop | unknown => cases hi

/-- An instruction that stores leaves memory as the one byte write does (R71, R130, R171, R173). -/
theorem exec_mem_of_store {i : Instr} {s t : State} {ea : Word} {v : Byte}
    (hs : storeOf i s = some (ea, v)) (h : exec i s = .next t) : t.mem = (s.writeByte ea v).mem := by
  cases i using instrFamilyCases with
  | load i o hi => cases (storeOf_of_isLoad hi.isLoad s).symm.trans hs
  | store i o hi =>
    cases (hi.storeOf_eq s).symm.trans hs
    cases (hi.exec_eq s).symm.trans h
    rfl
  | pha | php => cases hs; cases h; rfl
  | tax | txs | tsx | inx | pla | plp | nop | unknown op => cases hs

/-- A byte read looks at memory only. -/
theorem State.readByte_congr {s t : State} (h : t.mem = s.mem) (b : Word) :
    t.readByte b = s.readByte b :=
  congrArg (Memory.get · b.toNat) h

/-- What a byte read sees after an instruction that stores. -/
theorem readByte_exec_of_store {i : Instr} {s t : State} {ea : Word} {v : Byte} (hm : Memory.wf s.mem)
    (hs : storeOf i s = some (ea, v)) (h : exec i s = .next t) (b : Word) :
    t.readByte b = if b = ea then v else s.readByte b :=
  (State.readByte_congr (exec_mem_of_store hs h) b).trans (State.readByte_writeByte hm ea b v)

/-- An execution keeps the canonical form of memory (R50). -/
theorem exec_wf {i : Instr} {s t : State} (hm : Memory.wf s.mem) (h : exec i s = .next t) :
    Memory.wf t.mem := by
  cases hs : storeOf i s with
  | none => exact exec_mem_of_no_store hs h ▸ hm
  | some w => exact exec_mem_of_store hs h ▸ State.writeByte_wf hm w.1 w.2

/-- The log of a well-formed instruction's execution names unknown opcodes only, none at the sentinel's
address (R88, R240). -/
theorem exec_inv {i : Instr} {s t : State} (hi : i.wf = true) (hpc : s.pc - 1 ≠ Config.sentinel)
    (hs : s.Inv) (h : exec i s = .next t) : t.Inv := by
  have hm := exec_wf hs.canonical h
  by_cases hu : ∃ op, i = .unknown op
  · obtain ⟨op, rfl⟩ := hu
    have hop : lookup op = none := Option.isNone_iff_eq_none.mp hi
    cases h
    refine ⟨hm, fun d hd => ?_⟩
    obtain hd | rfl : d ∈ s.diag ∨ d = ⟨s.pc - 1, op⟩ := by simpa using hd
    · exact hs.diag d hd
    · exact ⟨hop, hpc⟩
  · exact hs.of_mem_diag hm ((exec_frame h).diag (not_exists.mp hu))

/-- A step keeps the invariant: a halt writes neither memory nor the log, and the instruction executed is
a fetched one, from an address other than the sentinel. -/
theorem step_inv {s t : State} (hs : s.Inv) (h : step s = .next t) : t.Inv := by
  obtain ⟨-, ⟨-, rfl⟩ | ⟨hpc, hx⟩⟩ := step_next h
  · exact hs.of_mem_diag hs.canonical rfl
  · refine exec_inv (fetch_wf s) ?_ (hs.of_mem_diag (t := s.advancePC 1) hs.canonical rfl) hx
    simpa using hpc

/-- A Running machine has a next state (R106, R200). -/
theorem step_of_running {s : State} (hr : s.runState = .running) : ∃ t, step s = .next t := by
  by_cases hpc : s.pc = Config.sentinel
  · exact ⟨_, step_sentinel hr hpc⟩
  · obtain ⟨t, ht⟩ := exec_completes s.fetch (s.advancePC 1)
    exact ⟨t, (step_exec hr hpc).trans ht⟩

/-- Every state that the host and steps bring about meets the invariant. -/
theorem Reachable.inv {s : State} (h : Reachable s) : s.Inv := by
  induction h with
  | new => exact State.new_inv
  | command c _ hc ih => exact State.hostCommand_inv ih hc
  | step _ ht ih => exact step_inv ih ht

/-- Every run is safe, since no step of a Running machine is a fault (R200). -/
theorem safeRun (s : State) : SafeRun s := fun _ _ _ hr => step_of_running hr

end Sys2Proof.Machine

open Sys2Proof Sys2Proof.Machine

/-- Settles O38: the invariant is kept by a halt and by every fetched instruction's execution. -/
theorem stepKeepsInvariant : Obligations.StepKeepsInvariant :=
  fun _ _ => step_inv

/-- Settles O25: where an instruction stores, memory is that of its one byte write, else that before it. -/
theorem memoryFrame : Obligations.MemoryFrame := by
  intro i s t hm h
  cases hs : storeOf i s with
  | none => exact State.readByte_congr (exec_mem_of_no_store hs h)
  | some w =>
    have hread := readByte_exec_of_store hm hs h
    exact ⟨(hread w.1).trans (if_pos rfl), fun b hb => (hread b).trans (if_neg hb)⟩

/-- Settles O41, by induction on how the state was brought about. -/
theorem reachableStatesAreSafe : Obligations.ReachableStatesAreSafe :=
  fun s h => ⟨h.inv, safeRun s⟩
end

section
/-! SUPPORT. What reads see after a word write, and after a store beside them. -/

namespace Sys2Proof.Machine

/-- The next address is another one, at the top of memory too. -/
theorem add_one_ne_self (a : Word) : a + 1 ≠ a := by bv_omega

/-- The address after the next is another one, at the top of memory too. -/
theorem add_two_ne_self (a : Word) : a + 2 ≠ a := by bv_omega

namespace State

/-- What a byte read sees after a word write: the high byte is written last (R54). -/
theorem readByte_writeWord {s : State} (h : Memory.wf s.mem) (a w b : Word) :
    (s.writeWord a w).readByte b =
      if b = a + 1 then highByte w else if b = a then lowByte w else s.readByte b := by
  rw [writeWord, readByte_writeByte (writeByte_wf h a _), readByte_writeByte h]

/-- `reset()` loads PC from the two vector bytes (R232). -/
theorem resetCommand_pc (s : State) :
    s.resetCommand.pc = wordOf (s.readByte 0xFFFD) (s.readByte 0xFFFC) := rfl

end State

end Sys2Proof.Machine

open Sys2Proof Sys2Proof.Machine Sys2Proof.Machine.State

/-- Settles O8: a word write is two byte writes at different addresses, on both sides of the wrap. -/
theorem wordAccessIsLittleEndian : Obligations.WordAccessIsLittleEndian := by
  intro s a w hm
  have hread := readByte_writeWord hm a w
  have hlow : (s.writeWord a w).readByte a = lowByte w := by
    rw [hread, if_neg (add_one_ne_self a).symm, if_pos rfl]
  have hhigh : (s.writeWord a w).readByte (a + 1) = highByte w := (hread _).trans (if_pos rfl)
  refine ⟨hlow, hhigh, ?_, fun b ha ha1 => ?_, rfl, wordOf_toNat _ _⟩
  · rw [readWord, hlow, hhigh, wordOf_highByte_lowByte]
  · rw [hread, if_neg ha1, if_neg ha]

/-- Settles O37: the fetch reads the stored byte at pc, and the two addresses after pc are others. -/
theorem storeIsSeenByTheNextFetch : Obligations.StoreIsSeenByTheNextFetch := by
  intro s t v hm hpc h hs
  obtain ⟨-, ⟨hsent, -⟩ | ⟨-, hx⟩⟩ := step_next h
  · exact absurd hsent hpc
  · have hread := readByte_exec_of_store (s := s.advancePC 1) hm hs hx
    rw [fetch, hread, hread, hread, if_pos rfl, if_neg (add_one_ne_self _), if_neg (add_two_ne_self _),
      advancePC_readByte, advancePC_readByte]

/-- Settles O44: the stored byte is the vector byte that `reset()` reads at its address. -/
theorem storedVectorIsLoadedByReset : Obligations.StoredVectorIsLoadedByReset := by
  intro i s t v hm h
  refine ⟨fun hs => ?_, fun hs => ?_⟩
  · have hread := readByte_exec_of_store hm hs h
    rw [resetCommand_pc, hread, hread, if_neg (by decide), if_pos rfl]
  · have hread := readByte_exec_of_store hm hs h
    rw [resetCommand_pc, hread, hread, if_pos rfl, if_neg (by decide)]

/-- Settles O36: the three bytes at 0xFFFE, 0xFFFF and 0x0000 are fetched as LDA Absolute. -/
theorem straddlingLoadExecutesInFull : Obligations.StraddlingLoadExecutesInFull := by
  intro s hr hpc hop
  have hfetch : s.fetch = .ldaAbs (wordOf (s.readByte 0x0000) (s.readByte 0xFFFF)) := by
    rw [fetch, hpc, hop]
    rfl
  have hstep : step s = exec s.fetch (s.advancePC 1) := step_exec hr (by rw [hpc]; decide)
  rw [hfetch] at hstep
  refine ⟨_, hstep, ?_, hr, rfl⟩
  simp [loadA_eq, hpc, Operand.mode, Mode.width]
end

section
/-! SUPPORT. The stack engine: the slot of a push and of the pop after it. -/

namespace Sys2Proof.Machine

/-- `ZN` of the same value twice is `ZN` once. -/
@[simp] theorem zeroNegative_idem (v p : Byte) :
    zeroNegative v (zeroNegative v p) = zeroNegative v p :=
  byte_eq_of_getFlag fun f => by
    simp only [getFlag_zeroNegative]
    split_ifs <;> rfl

namespace State

/-- A push stores its byte in the slot and no other (R60). -/
theorem stored_push {s : State} (h : Memory.wf s.mem) (v : Byte) :
    Stored s (s.push v) (stackAddress s.sp) v :=
  stored_put h _ v

/-- A pop right after a push reads the pushed byte (R60, R61). -/
theorem pop_push_fst {s : State} (h : Memory.wf s.mem) (v : Byte) : (s.push v).pop.1 = v := by
  rw [pop_fst, push_sp, BitVec.sub_add_cancel]
  exact (stored_push h v).1

/-- A pop right after a push restores SP (R60, R61). -/
theorem pop_push_sp (s : State) (v : Byte) : (s.push v).pop.2.sp = s.sp :=
  BitVec.sub_add_cancel s.sp 1

end State

end Sys2Proof.Machine

open Sys2Proof Sys2Proof.Machine Sys2Proof.Machine.State

/-- Settles O9: the slots are the stack addresses of the old SP for a push and the new one for a pop. -/
theorem stackStaysInPageOne : Obligations.StackStaysInPageOne := by
  intro s v hm
  have hpop : (stackAddress (s.sp + 1)).toNat = 0x0100 + (s.sp.toNat + 1) % 256 :=
    stackAddress_toNat _
  refine ⟨stackAddress_toNat s.sp, stored_push hm v, rfl, ?_, ⟨_, hpop, rfl⟩, rfl, rfl,
    fun hsp => ⟨?_, ?_⟩, fun hsp => ⟨?_, ?_⟩⟩
  · rw [push_sp]
    bv_omega
  · have hslot := (stored_push hm v).1
    rwa [hsp] at hslot
  · rw [push_sp, hsp]
    rfl
  · rw [pop_fst, hsp]
    rfl
  · rw [pop_snd, hsp]
    rfl

/-- Settles O10: the pop reads the pushed byte, so PLA applies `ZN` to A a second time and PLP stores P. -/
theorem pushThenPopRestores : Obligations.PushThenPopRestores := by
  intro s v hm
  refine ⟨⟨pop_push_fst hm v, pop_push_sp s v⟩,
    ⟨_, _, rfl, rfl, pop_push_fst hm s.a, pop_push_sp s s.a, ?_⟩,
    ⟨_, _, rfl, rfl, pop_push_fst hm s.p, pop_push_sp s s.p⟩⟩
  have hp : ZNFrom s.a s.p (zeroNegative (s.push s.a).pop.1 (zeroNegative s.a s.p)) := by
    rw [pop_push_fst hm, zeroNegative_idem]
    exact znFrom_zeroNegative s.a s.p
  exact hp
end

section
/-! SUPPORT. Which opcode and operand bytes stand for an instruction: the relation that the decoder reads
and the encoder writes. -/

namespace Sys2Proof

/-- The opcode byte `op` and the operand bytes `ops` stand for `i`: `op` has no row and `i` is its unknown
opcode, or `ops` are the bytes that its row consumes and `i` is what the row makes of them (R80-R88). -/
def StandsFor (op : Byte) (ops : List Byte) (i : Instr) : Prop :=
  (lookup op = none ∧ ops = [] ∧ i = .unknown op) ∨
    ∃ e, lookup op = some e ∧ ops.length = e.mode.width ∧ i = e.instr (ops.getD 0 0) (ops.getD 1 0)

/-- No mode consumes more than two operand bytes (R86). -/
theorem Mode.width_le_two (m : Mode) : m.width ≤ 2 := by
  cases m <;> decide

/-- The decoder takes off what stands for an instruction, and leaves the bytes after it. -/
theorem decode_of_standsFor {op : Byte} {ops : List Byte} {i : Instr} (h : StandsFor op ops i)
    (rest : List Byte) : decode (op :: (ops ++ rest)) = .ok (i, rest) := by
  obtain ⟨hl, rfl, rfl⟩ | ⟨e, hl, hlen, rfl⟩ := h
  · simp [decode, hl]
  · have hwidth := e.mode.width_le_two
    match ops, hlen with
    | [], hlen => simp [decode, hl, ← hlen]
    | [b1], hlen => simp [decode, hl, ← hlen]
    | [b1, b2], hlen => simp [decode, hl, ← hlen]
    | _ :: _ :: _ :: _, hlen => simp only [List.length_cons] at hlen; omega

/-- The bytes of a well-formed instruction stand for it (R84, R88). -/
theorem standsFor_encode {i : Instr} (hi : i.wf = true) :
    ∃ op ops, encode i = op :: ops ∧ StandsFor op ops i := by
  cases i with
  | unknown op => exact ⟨op, [], rfl, .inl ⟨Option.isNone_iff_eq_none.mp hi, rfl, rfl⟩⟩
  | ldaAbs w | ldaAbsX w | ldaAbsY w | staAbs w | staAbsX w | staAbsY w =>
    exact ⟨_, _, rfl, .inr ⟨_, rfl, rfl, congrArg _ (wordOf_highByte_lowByte w).symm⟩⟩
  | ldaImm d | ldaZp d | ldaZpX d | ldaIndX d | ldaIndY d | staZp d | staZpX d | staIndX d | staIndY d
  | tax | txs | tsx | inx | pha | pla | php | plp | nop =>
    exact ⟨_, _, rfl, .inr ⟨_, rfl, rfl, rfl⟩⟩

/-- The bytes of what a row makes are its opcode and the operand bytes that its mode consumes (R84). -/
theorem encode_row_instr : ∀ e ∈ opcodeTable, ∀ b1 b2,
    encode (e.instr b1 b2) = e.opcode :: [b1, b2].take e.mode.width := by
  simp [opcodeTable, ldaRows, staRows, impliedRows, encode, Mode.width]

/-- As many bytes as a mode consumes are found again in the two that a row is given. -/
theorem take_getD_eq_self {ops : List Byte} {m : Mode} (h : ops.length = m.width) :
    [ops.getD 0 0, ops.getD 1 0].take m.width = ops := by
  have hwidth := m.width_le_two
  rw [← h] at hwidth ⊢
  match ops, hwidth with
  | [], _ => rfl
  | [b1], _ => rfl
  | [b1, b2], _ => rfl

/-- What some bytes stand for is well-formed and has them as its encoding (R84, R88). -/
theorem StandsFor.wf_and_encode {op : Byte} {ops : List Byte} {i : Instr} (h : StandsFor op ops i) :
    i.wf = true ∧ encode i = op :: ops := by
  obtain ⟨hl, rfl, rfl⟩ | ⟨e, hl, hlen, rfl⟩ := h
  · exact ⟨Option.isNone_iff_eq_none.mpr hl, rfl⟩
  · obtain ⟨hmem, rfl⟩ := lookup_some hl
    exact ⟨(row_instr e hmem _ _).2, by rw [encode_row_instr e hmem, take_getD_eq_self hlen]⟩

/-- The length of the instruction at an opcode byte: 1 plus the row's operand width, or 1 where the byte
has no row (R86, R88). -/
def opcodeLength (op : Byte) : Nat :=
  match lookup op with
  | some e => 1 + e.mode.width
  | none => 1

theorem opcodeLength_of_row {op : Byte} {e : OpcodeEntry} (h : lookup op = some e) :
    opcodeLength op = 1 + e.mode.width := by
  simp [opcodeLength, h]

theorem opcodeLength_of_none {op : Byte} (h : lookup op = none) : opcodeLength op = 1 := by
  simp [opcodeLength, h]

/-- An instruction has one to three bytes (R80). -/
theorem opcodeLength_bounds (op : Byte) : 1 ≤ opcodeLength op ∧ opcodeLength op ≤ 3 := by
  cases hl : lookup op with
  | none => simp [opcodeLength_of_none hl]
  | some e =>
    have hwidth := e.mode.width_le_two
    rw [opcodeLength_of_row hl]
    omega

/-- The opcode byte alone determines the length of what is read there, and so how many operand bytes stand
after it (R86, R90). -/
theorem StandsFor.length_eq {op : Byte} {ops : List Byte} {i : Instr} (h : StandsFor op ops i) :
    i.length = opcodeLength op ∧ i.length = 1 + ops.length := by
  obtain ⟨hl, rfl, rfl⟩ | ⟨e, hl, hlen, rfl⟩ := h
  · exact ⟨(opcodeLength_of_none hl).symm, rfl⟩
  · rw [Instr.length, (row_instr e (lookup_some hl).1 _ _).1, opcodeLength_of_row hl, hlen]
    exact ⟨rfl, rfl⟩

end Sys2Proof

open Sys2Proof

/-- Settles O1: the bytes written are an opcode and operands that stand for the instruction, and such bytes
are what the decoder takes off. -/
theorem decodeInvertsEncode : Obligations.DecodeInvertsEncode := by
  intro i rest hi
  obtain ⟨op, ops, henc, hstands⟩ := standsFor_encode hi
  rw [henc]
  exact decode_of_standsFor hstands rest

/-- Settles O2: the bytes consumed stand for the instruction, so they are its encoding. -/
theorem encodeInvertsDecode : Obligations.EncodeInvertsDecode := by
  intro bs rest i h
  obtain ⟨op, ops, rfl, hstands⟩ := decode_ok h
  obtain ⟨hwf, henc⟩ := StandsFor.wf_and_encode hstands
  exact ⟨hwf, by rw [henc, List.cons_append]⟩

/-- Settles O5: the bytes consumed stand for the instruction, so its length is theirs and the opcode's. -/
theorem lengthFollowsFromTheOpcode : Obligations.LengthFollowsFromTheOpcode := by
  refine ⟨by decide, fun op tail rest i h => ?_⟩
  obtain ⟨op', ops, hbs, hstands⟩ := decode_ok h
  obtain ⟨rfl, rfl⟩ := List.cons.inj hbs
  obtain ⟨hop, hops⟩ := StandsFor.length_eq hstands
  refine ⟨?_, hop⟩
  rw [hops, List.length_cons, List.length_append]
  omega

/-- Settles O4, by looking up each of the 256 byte values. -/
theorem opcodeTableIsUnambiguous : Obligations.OpcodeTableIsUnambiguous := by
  exact ⟨rfl, by decide, by decide +kernel⟩
end

section
/-! SUPPORT. What one step does to pc, and what a step at an unknown opcode does; runs by induction on the
distance of pc from the sentinel. -/

namespace Sys2Proof.Machine

/-- The length of the fetched instruction follows from its opcode byte (R86, R90). -/
theorem fetch_length (s : State) : s.fetch.length = opcodeLength (s.readByte s.pc) := by
  unfold State.fetch decodeBytes
  cases hl : lookup (s.readByte s.pc) with
  | none => exact (opcodeLength_of_none hl).symm
  | some e =>
    rw [opcodeLength_of_row hl, Instr.length, (row_instr e (lookup_some hl).1 _ _).1]

/-- A byte with no row is fetched as an unknown opcode (R88). -/
theorem fetch_of_lookup_none {s : State} (h : lookup (s.readByte s.pc) = none) :
    s.fetch = .unknown (s.readByte s.pc) := by
  simp [State.fetch, decodeBytes, h]

/-- A step away from the sentinel completes, leaves the machine Running, and moves pc by the length of the
instruction there, modulo 65536 (R106, R109, R200). -/
theorem step_pc {s : State} (hr : s.runState = .running) (hp : s.pc ≠ Config.sentinel) :
    ∃ t, step s = .next t ∧ t.runState = .running ∧
      t.pc.toNat = (s.pc.toNat + opcodeLength (s.readByte s.pc)) % 65536 := by
  obtain ⟨t, ht⟩ := exec_completes s.fetch (s.advancePC 1)
  have hf := exec_frame ht
  have hpc : t.pc = s.pc + BitVec.ofNat 16 s.fetch.length := by
    rw [hf.pc, State.advancePC_pc, BitVec.add_assoc, ← BitVec.ofNat_add, Instr.length]
  refine ⟨t, (step_exec hr hp).trans ht, hf.runState.trans hr, ?_⟩
  rw [hpc, fetch_length, BitVec.toNat_add, BitVec.toNat_ofNat, Nat.add_mod_mod]

/-- The state after an unknown opcode at pc: its record is appended and pc is past it (R88). -/
def passUnknown (s : State) : State := (s.setPC (s.pc + 1)).emitDiag s.pc (s.readByte s.pc)

/-- A step at an unknown opcode logs it, passes it and does nothing else (R88). -/
theorem step_unknown {s : State} (hr : s.runState = .running) (hp : s.pc ≠ Config.sentinel)
    (h : lookup (s.readByte s.pc) = none) :
    step s = .next (passUnknown s) := by
  have hpc : (s.advancePC 1).pc - 1 = s.pc := BitVec.add_sub_cancel s.pc 1
  calc step s = exec s.fetch (s.advancePC 1) := step_exec hr hp
    _ = .next ((s.advancePC 1).emitDiag ((s.advancePC 1).pc - 1) (s.readByte s.pc)) := by
      rw [fetch_of_lookup_none h]; rfl
    _ = .next (passUnknown s) := by rw [hpc]; rfl

/-- Away from the sentinel there are addresses above pc. -/
theorem toNat_lt_sentinel {w : Word} (h : w ≠ Config.sentinel) : w.toNat < 0xFFFF := by
  have hne : w.toNat ≠ 0xFFFF := fun e => h (BitVec.eq_of_toNat_eq e)
  have := w.isLt
  omega

/-- The next step of a Running machine straddles the top of memory: it leaves the machine Running with a pc
below the one before it, at 0x0000 or 0x0001 (R241, R242). -/
def StepStraddles (t : State) : Prop :=
  ∃ u, step t = .next u ∧ u.runState = .running ∧ u.pc.toNat < t.pc.toNat ∧ u.pc.toNat ≤ 1

/-- A step away from the sentinel straddles the top of memory or moves pc up (R109, R242). -/
theorem stepStraddles_or_pc_lt {s : State} (hr : s.runState = .running) (hp : s.pc ≠ Config.sentinel) :
    StepStraddles s ∨
      ∃ u, step s = .next u ∧ u.runState = .running ∧ s.pc.toNat < u.pc.toNat := by
  obtain ⟨u, hu, hur, hupc⟩ := step_pc hr hp
  obtain ⟨hpos, hle⟩ := opcodeLength_bounds (s.readByte s.pc)
  have hlt := toNat_lt_sentinel hp
  by_cases hwrap : s.pc.toNat + opcodeLength (s.readByte s.pc) < 65536
  · exact .inr ⟨u, hu, hur, by omega⟩
  · exact .inl ⟨u, hu, hur, by omega, by omega⟩

/-- With `d` addresses from pc up to the sentinel, `d` steps reach the sentinel or a step that straddles. -/
theorem run_reaches_sentinel_or_straddles (d : Nat) : ∀ s : State, s.runState = .running →
    0xFFFF - s.pc.toNat ≤ d →
    ∃ n t, n ≤ 0xFFFF - s.pc.toNat ∧ Host.Core.run core n s = .next t ∧ t.runState = .running ∧
      (t.pc = 0xFFFF ∨ StepStraddles t) := by
  induction d with
  | zero =>
    intro s hr hd
    have hp : s.pc = Config.sentinel := by
      by_contra hne
      have := toNat_lt_sentinel hne
      omega
    exact ⟨0, s, Nat.zero_le _, rfl, hr, .inl hp⟩
  | succ d ih =>
    intro s hr hd
    by_cases hp : s.pc = Config.sentinel
    · exact ⟨0, s, Nat.zero_le _, rfl, hr, .inl hp⟩
    obtain hstr | ⟨u, hu, hur, hlt⟩ := stepStraddles_or_pc_lt hr hp
    · exact ⟨0, s, Nat.zero_le _, rfl, hr, .inr hstr⟩
    · have := toNat_lt_sentinel hp
      obtain ⟨n, t, hn, hrun, hend⟩ := ih u hur (by omega)
      exact ⟨n + 1, t, by omega, (run_next hu n).trans hrun, hend⟩

/-- The records of `n` unknown opcodes from pc on, in order (R37, R244). -/
def unknownRecords (s : State) (n : Nat) : List DiagRecord :=
  (List.range n).map fun k => ⟨s.pc + BitVec.ofNat 16 k, s.readByte (s.pc + BitVec.ofNat 16 k)⟩

/-- The first record is that of pc, and the others are those from the next address on. -/
theorem unknownRecords_succ (s : State) (n : Nat) :
    unknownRecords s (n + 1) = ⟨s.pc, s.readByte s.pc⟩ :: unknownRecords (passUnknown s) n := by
  have hnext (k : Nat) : s.pc + BitVec.ofNat 16 (k + 1) = (passUnknown s).pc + BitVec.ofNat 16 k := by
    rw [Nat.add_comm k 1, BitVec.ofNat_add, ← BitVec.add_assoc]
    rfl
  rw [unknownRecords, List.range_succ_eq_map, List.map_cons, List.map_map, BitVec.add_zero]
  refine congrArg _ (List.map_congr_left fun k _ => ?_)
  rw [Function.comp_apply, hnext]
  rfl

/-- The state in which a run over `n` unknown opcodes from pc on returns (R244). -/
def afterUnknownTail (s : State) (n : Nat) : State :=
  { s with pc := 0xFFFF, runState := .halted, diag := s.diag ++ unknownRecords s n }

/-- A first unknown opcode's record goes in front of those after it. -/
theorem afterUnknownTail_passUnknown (s : State) (n : Nat) :
    afterUnknownTail (passUnknown s) n = afterUnknownTail s (n + 1) := by
  rw [afterUnknownTail, afterUnknownTail, unknownRecords_succ, List.append_cons]
  rfl

/-- A run over `n` unknown opcodes up to the sentinel takes one step for each and one to halt. -/
theorem runLoop_unknownTail (n : Nat) : ∀ s : State, s.runState = .running → s.pc.toNat + n = 0xFFFF →
    (∀ a : Word, s.pc.toNat ≤ a.toNat → a.toNat < 0xFFFF → lookup (s.readByte a) = none) →
    State.runLoop (n + 1) s = some (afterUnknownTail s n) := by
  induction n with
  | zero =>
    intro s hr hn _
    have hp : s.pc = Config.sentinel := BitVec.eq_of_toNat_eq hn
    rw [State.runLoop_next (step_sentinel hr hp), State.runLoop_stop (by simp)]
    simp [afterUnknownTail, unknownRecords, State.halt, State.setRunState, hp, Config.sentinel]
  | succ n ih =>
    intro s hr hn htail
    have hp : s.pc ≠ Config.sentinel := fun e => by simp [e, Config.sentinel] at hn
    have hpc : (passUnknown s).pc.toNat = s.pc.toNat + 1 := by
      rw [passUnknown, State.emitDiag_pc, State.setPC_pc]
      bv_omega
    have hstep := step_unknown hr hp (htail s.pc le_rfl (by omega))
    rw [State.runLoop_next hstep, ← afterUnknownTail_passUnknown]
    exact ih (passUnknown s) hr (by omega) fun a ha => htail a (by omega)

end Sys2Proof.Machine

open Sys2Proof Sys2Proof.Machine

/-- Settles O31: the three bytes decode to the fetched instruction. -/
theorem stepRunsDecodedInstruction : Obligations.StepRunsDecodedInstruction := by
  intro s i rest hr hp h
  have hi : i = s.fetch := decode_three h
  rw [hi]
  exact ⟨fetch_wf s, step_exec hr hp⟩

/-- Settles O22: the record is all that an unknown opcode's execution writes. -/
theorem unknownOpcodeOnlyLogs : Obligations.UnknownOpcodeOnlyLogs :=
  fun s _ => ⟨rfl, ⟨s, rfl, rfl⟩, step_unknown⟩

/-- Settles O35: the opcode fetch and the operand bytes together are the length at the opcode byte. -/
theorem stepAdvancesPCByLength : Obligations.StepAdvancesPCByLength := by
  intro s hr hp
  obtain ⟨t, ht, -, hpc⟩ := step_pc hr hp
  exact ⟨t, ht, hpc⟩

/-- Settles O51, by induction on the addresses left below the sentinel. -/
theorem runReachesTheSentinelOrStraddles : Obligations.RunReachesTheSentinelOrStraddles :=
  fun s hr => run_reaches_sentinel_or_straddles _ s hr le_rfl

/-- Settles O52, by induction on the unknown opcodes left below the sentinel. -/
theorem unknownTailRunsToTheSentinel : Obligations.UnknownTailRunsToTheSentinel := by
  intro s htail
  have hle : s.pc.toNat ≤ 0xFFFF := Nat.le_of_lt_succ s.pc.isLt
  exact ⟨_, runLoop_unknownTail (0xFFFF - s.pc.toNat) s.beginRun rfl (Nat.add_sub_of_le hle) htail⟩
end

section
/-! SUPPORT. The literal pseudocode and the decoded instruction: an operand that stands in memory at pc
resolves as the pseudocode's resolver does, and each row's effects are its instruction's execution. -/

namespace Sys2Proof.Machine

/-- The operand `o` is what the bytes of memory at pc give (R82, R83). -/
def OperandAtPC (o : Operand) (s : State) : Prop :=
  match o with
  | .immediate b | .zeroPage b | .zeroPageX b | .zeroPageY b | .indirectX b | .indirectY b =>
    b = s.readByte s.pc
  | .absolute w | .absoluteX w | .absoluteY w => w = s.readWord s.pc

/-- The pseudocode's resolver, which reads memory, finds the effective address and the new pc of the operand
that stands there (R95-R104). -/
theorem resolver_of_operandAtPC {o : Operand} {s : State} (h : OperandAtPC o s) :
    resolver o.mode s.pc s.x s.y s.mem = (effectiveAddress o s, s.pc + BitVec.ofNat 16 o.mode.width) := by
  cases o <;> (cases h; rfl)

/-- The byte a load takes from an operand that stands at pc is the byte at its effective address, in
Immediate too (R96, R120, R121). -/
theorem operandByte_of_operandAtPC {o : Operand} {s : State} (h : OperandAtPC o s) :
    operandByte o (effectiveAddress o s) s = s.readByte (effectiveAddress o s) := by
  cases o with
  | immediate d => exact h
  | zeroPage | zeroPageX | zeroPageY | absolute | absoluteX | absoluteY | indirectX | indirectY => rfl

/-- The effects of an LDA row are the load of the operand that stands at pc (R120). -/
theorem executeEntry_lda {e : OpcodeEntry} {o : Operand} {s : State} (hm : e.mnemonic = .lda)
    (hmode : e.mode = o.mode) (h : OperandAtPC o s) : executeEntry e s = loadA o s := by
  rw [loadA_eq, operandByte_of_operandAtPC h, executeEntry, hm, hmode, resolver_of_operandAtPC h]
  rfl

/-- The effects of an STA row are the store at the operand that stands at pc (R130). -/
theorem executeEntry_sta {e : OpcodeEntry} {o : Operand} {s : State} (hm : e.mnemonic = .sta)
    (hmode : e.mode = o.mode) (h : OperandAtPC o s) : executeEntry e s = storeA o s := by
  rw [storeA_eq, executeEntry, hm, hmode, resolver_of_operandAtPC h]
  rfl

/-- `e`'s instruction, made of the two bytes at pc, executes as the effects that the pseudocode gives `e`. -/
def RowRefines (e : OpcodeEntry) (s : State) : Prop :=
  exec (e.instr (s.readByte s.pc) (s.readByte (s.pc + 1))) s = .next (executeEntry e s)

/-- An LDA row refines where its instruction is the load of the operand that stands at pc. -/
theorem RowRefines.of_load {e : OpcodeEntry} {s : State} (o : Operand) (hm : e.mnemonic = .lda)
    (hmode : e.mode = o.mode) (ho : OperandAtPC o s)
    (hx : exec (e.instr (s.readByte s.pc) (s.readByte (s.pc + 1))) s = .next (loadA o s)) :
    RowRefines e s :=
  hx.trans (congrArg _ (executeEntry_lda hm hmode ho).symm)

/-- An STA row refines where its instruction is the store at the operand that stands at pc. -/
theorem RowRefines.of_store {e : OpcodeEntry} {s : State} (o : Operand) (hm : e.mnemonic = .sta)
    (hmode : e.mode = o.mode) (ho : OperandAtPC o s)
    (hx : exec (e.instr (s.readByte s.pc) (s.readByte (s.pc + 1))) s = .next (storeA o s)) :
    RowRefines e s :=
  hx.trans (congrArg _ (executeEntry_sta hm hmode ho).symm)

theorem ldaRows_refine (s : State) : ∀ e ∈ ldaRows, RowRefines e s := by
  simp only [ldaRows, List.forall_mem_cons]
  exact ⟨.of_load (.immediate _) rfl rfl rfl rfl, .of_load (.zeroPage _) rfl rfl rfl rfl,
    .of_load (.zeroPageX _) rfl rfl rfl rfl, .of_load (.absolute _) rfl rfl rfl rfl,
    .of_load (.absoluteX _) rfl rfl rfl rfl, .of_load (.absoluteY _) rfl rfl rfl rfl,
    .of_load (.indirectX _) rfl rfl rfl rfl, .of_load (.indirectY _) rfl rfl rfl rfl, nofun⟩

theorem staRows_refine (s : State) : ∀ e ∈ staRows, RowRefines e s := by
  simp only [staRows, List.forall_mem_cons]
  exact ⟨.of_store (.zeroPage _) rfl rfl rfl rfl, .of_store (.zeroPageX _) rfl rfl rfl rfl,
    .of_store (.absolute _) rfl rfl rfl rfl, .of_store (.absoluteX _) rfl rfl rfl rfl,
    .of_store (.absoluteY _) rfl rfl rfl rfl, .of_store (.indirectX _) rfl rfl rfl rfl,
    .of_store (.indirectY _) rfl rfl rfl rfl, nofun⟩

/-- The rows without an operand leave pc where it is, and have the effects their rules name. -/
theorem impliedRows_refine (s : State) : ∀ e ∈ impliedRows, RowRefines e s := by
  simp only [impliedRows, List.forall_mem_cons]
  exact ⟨rfl, rfl, rfl, rfl, rfl, rfl, rfl, rfl, rfl, nofun⟩

theorem opcodeTable_refines (s : State) : ∀ e ∈ opcodeTable, RowRefines e s := by
  rw [opcodeTable, List.forall_mem_append, List.forall_mem_append]
  exact ⟨⟨ldaRows_refine s, staRows_refine s⟩, impliedRows_refine s⟩

/-- Away from the sentinel, the pseudocode at a byte with no row passes the unknown opcode (R88, R106). -/
theorem pseudocodeStep_of_lookup_none {s : State} (hp : s.pc ≠ Config.sentinel)
    (h : lookup (s.readByte s.pc) = none) : pseudocodeStep s = passUnknown s := by
  simp [pseudocodeStep, hp, h, passUnknown]

/-- Away from the sentinel, the pseudocode at the byte of a row has that row's effects, past the opcode
byte (R106). -/
theorem pseudocodeStep_of_row {s : State} {e : OpcodeEntry} (hp : s.pc ≠ Config.sentinel)
    (h : lookup (s.readByte s.pc) = some e) : pseudocodeStep s = executeEntry e (s.advancePC 1) := by
  simp [pseudocodeStep, hp, h, State.advancePC]

/-- The byte of a row is fetched as that row's instruction, made of the two bytes after it (R84, R106). -/
theorem fetch_of_row {s : State} {e : OpcodeEntry} (h : lookup (s.readByte s.pc) = some e) :
    s.fetch = e.instr (s.readByte (s.pc + 1)) (s.readByte (s.pc + 1 + 1)) := by
  simp [State.fetch, decodeBytes, h, BitVec.add_assoc]

/-- A step of a Running machine is the pseudocode's. -/
theorem step_eq_pseudocodeStep {s : State} (hr : s.runState = .running) :
    step s = .next (pseudocodeStep s) := by
  by_cases hp : s.pc = Config.sentinel
  · rw [step_sentinel hr hp, pseudocodeStep, if_pos hp]
  cases hl : lookup (s.readByte s.pc) with
  | none => rw [step_unknown hr hp hl, pseudocodeStep_of_lookup_none hp hl]
  | some e =>
    rw [step_exec hr hp, fetch_of_row hl, pseudocodeStep_of_row hp hl]
    exact opcodeTable_refines (s.advancePC 1) e (lookup_some hl).1

/-- A zero index adds nothing to an address. -/
theorem add_zext16_zero (w : Word) : w + zext16 0x00 = w := BitVec.add_zero w

end Sys2Proof.Machine

open Sys2Proof Sys2Proof.Machine

/-- Settles O32: at the sentinel both halt, at a byte with no row both log it, and at a row's byte the
fetched instruction's execution is the row's effects. -/
theorem stepRefinesPseudocode : Obligations.StepRefinesPseudocode :=
  fun _ => ⟨step_eq_pseudocodeStep, fun hr _ h => hr (step_next h).1⟩

/-- Settles O29: each mode's case of the resolver is its rule. -/
theorem resolverModes : Obligations.ResolverModes :=
  fun _ _ _ _ => ⟨rfl, rfl, rfl, rfl, rfl, rfl, rfl, rfl, rfl, rfl⟩

/-- Settles O30: a zero index adds nothing, to a zero-page byte or to a word. -/
theorem indexZeroResolvesAlike : Obligations.IndexZeroResolvesAlike := by
  intro pc x y m
  simp only [resolver, add_zero, add_zext16_zero, and_self]
end

section
/-! SUPPORT. The LDA and STA families in the terms of the claims: an instruction that executes as the load of
an operand, or as the store at it, has the family's effect at the operand's effective address. -/

namespace Sys2Proof.Machine

/-- A load puts the operand's byte into A, with Z and N from it, and passes the operand bytes (R120). -/
theorem loads_of_exec_eq {i : Instr} {s : State} (o : Operand) (h : exec i s = .next (loadA o s)) :
    Loads i s (operandByte o (effectiveAddress o s) s) o.mode.width :=
  ⟨_, znFrom_zeroNegative _ _, by rw [h, loadA_eq]⟩

/-- A store in canonical memory puts A at the effective address and nowhere else, and passes the operand
bytes (R130). -/
theorem storesA_of_exec_eq {i : Instr} {s : State} (hm : Memory.wf s.mem) (o : Operand)
    (h : exec i s = .next (storeA o s)) : StoresA i s (effectiveAddress o s) o.mode.width :=
  ⟨_, by rw [h, storeA_eq], stored_put hm _ _⟩

end Sys2Proof.Machine

open Sys2Proof Sys2Proof.Machine

/-- Settles O12: each STA form is the store at its operand, whose effective address is the claim's. -/
theorem staStoresAtTheAddress : Obligations.StaStoresAtTheAddress :=
  fun _ d w hm =>
    ⟨storesA_of_exec_eq hm (.zeroPage d) rfl, storesA_of_exec_eq hm (.zeroPageX d) rfl,
      storesA_of_exec_eq hm (.absolute w) rfl, storesA_of_exec_eq hm (.absoluteX w) rfl,
      storesA_of_exec_eq hm (.absoluteY w) rfl, storesA_of_exec_eq hm (.indirectX d) rfl,
      storesA_of_exec_eq hm (.indirectY d) rfl⟩

/-- Settles O11: each LDA form is the load of its operand, whose byte is the claim's: the decoded one
in Immediate, else the one at the effective address. -/
theorem ldaLoadsTheAddressedByte : Obligations.LdaLoadsTheAddressedByte :=
  fun _ d w =>
    ⟨loads_of_exec_eq (.immediate d) rfl, loads_of_exec_eq (.zeroPage d) rfl,
      loads_of_exec_eq (.zeroPageX d) rfl, loads_of_exec_eq (.absolute w) rfl,
      loads_of_exec_eq (.absoluteX w) rfl, loads_of_exec_eq (.absoluteY w) rfl,
      loads_of_exec_eq (.indirectX d) rfl, loads_of_exec_eq (.indirectY d) rfl⟩
end

section
/-! SUPPORT. The operation TAX and INX share: a byte put into X, with Z and N from it. -/

namespace Sys2Proof.Machine

/-- A byte put into X, with `ZN` from it, changes X, Z and N alone (R150, R153). -/
theorem updateZN_setX (s : State) (v : Byte) :
    ∃ q, ZNFrom v s.p q ∧ (s.setX v).updateZN v = { s with x := v, p := q } :=
  ⟨_, znFrom_zeroNegative v s.p, rfl⟩

end Sys2Proof.Machine

open Sys2Proof Sys2Proof.Machine

/-- Settles O13: TAX puts A into X, with Z and N from it. -/
theorem taxCopiesAToX : Obligations.TaxCopiesAToX := by
  intro s
  obtain ⟨q, hzn, hnext⟩ := updateZN_setX s s.a
  exact ⟨rfl, q, hzn, congrArg Host.Outcome.next hnext⟩

/-- Settles O14: TXS is the one write of SP. -/
theorem txsCopiesXToSP : Obligations.TxsCopiesXToSP :=
  fun _ => ⟨rfl, rfl⟩

/-- Settles O15: TSX is the one write of X, with no `ZN` after it. -/
theorem tsxCopiesSPToX : Obligations.TsxCopiesSPToX :=
  fun _ => ⟨rfl, rfl⟩

/-- Settles O16: INX puts X + 1 into X, a sum of bytes and so modulo 256, with Z and N from it. -/
theorem inxIncrementsX : Obligations.InxIncrementsX := by
  intro s
  obtain ⟨q, hzn, hnext⟩ := updateZN_setX s (s.x + 1)
  exact ⟨rfl, s.x + 1, q, BitVec.toNat_add s.x 1, hzn, congrArg Host.Outcome.next hnext⟩
end

section
/-! SUPPORT. PHA, PLA, PHP and PLP in terms of the stack engine, and a whole push and a whole pop in the
terms of the claims. -/

namespace Sys2Proof.Machine

namespace State

/-- A push in canonical memory stores its byte at 0x0100 + SP, decrements SP and changes nothing else
(R60). -/
theorem exists_push_eq {s : State} (h : Memory.wf s.mem) (v : Byte) :
    ∃ m, s.push v = { s with mem := m, sp := s.sp - 1 } ∧
      Stored s { s with mem := m } (0x0100 + s.sp.setWidth 16) v :=
  ⟨_, rfl, stored_put h _ v⟩

/-- A pop increments SP and reads the byte at 0x0100 + the new SP (R61). -/
theorem pop_eq (s : State) :
    s.pop = (s.readByte (0x0100 + (s.sp + 1).setWidth 16), { s with sp := s.sp + 1 }) := rfl

end State

theorem exec_pha (s : State) : exec .pha s = .next ((s.push s.a).updateZN s.a) := rfl

theorem exec_php (s : State) : exec .php s = .next (s.push s.p) := rfl

theorem exec_pla (s : State) :
    exec .pla s = .next ((s.pop.2.setA s.pop.1).updateZN s.pop.1) := rfl

theorem exec_plp (s : State) : exec .plp s = .next (s.pop.2.setP s.pop.1) := rfl

end Sys2Proof.Machine

open Sys2Proof Sys2Proof.Machine Sys2Proof.Machine.State

/-- Settles O17: PHA is the push of A, with Z and N from A after it. -/
theorem phaPushesAAndSetsZN : Obligations.PhaPushesAAndSetsZN := by
  intro s hm
  obtain ⟨m, hpush, hstored⟩ := exists_push_eq hm s.a
  refine ⟨rfl, m, zeroNegative s.a s.p, ?_, hstored, znFrom_zeroNegative s.a s.p⟩
  rw [exec_pha, hpush]
  rfl

/-- Settles O19: PHP is the push of P and nothing more. -/
theorem phpPushesPVerbatim : Obligations.PhpPushesPVerbatim := by
  intro s hm
  obtain ⟨m, hpush, hstored⟩ := exists_push_eq hm s.p
  exact ⟨rfl, m, by rw [exec_php, hpush], hstored⟩

/-- Settles O18: PLA puts the popped byte into A, with Z and N from it. -/
theorem plaPopsAAndSetsZN : Obligations.PlaPopsAAndSetsZN := by
  intro s
  refine ⟨rfl, _, zeroNegative s.pop.1 s.p, rfl, znFrom_zeroNegative s.pop.1 s.p, ?_⟩
  rw [exec_pla, pop_eq]
  rfl

/-- Settles O20: PLP puts the popped byte into P, with no `ZN` after it. -/
theorem plpReplacesP : Obligations.PlpReplacesP := by
  intro s
  refine ⟨rfl, ?_⟩
  rw [exec_plp, pop_eq]
  rfl
end

section
/-! SUPPORT. NOP as it is fetched and executed. -/

namespace Sys2Proof.Machine

theorem exec_nop (s : State) : exec .nop s = .next s := rfl

/-- The byte 0xEA at pc is fetched as NOP, whatever bytes follow it (R190). -/
theorem fetch_nop {s : State} (h : s.readByte s.pc = 0xEA) : s.fetch = .nop := by
  have hrow : lookup (s.readByte s.pc) =
      some ⟨0xEA, .nop, .noneAddressing, 1, 2, false, fun _ _ => .nop⟩ := by rw [h]; rfl
  exact fetch_of_row hrow

end Sys2Proof.Machine

open Sys2Proof Sys2Proof.Machine

/-- Settles O21: away from the sentinel the step executes the fetched NOP in the state whose pc is past the
opcode byte, and that execution changes nothing. -/
theorem nopOnlyAdvancesPC : Obligations.NopOnlyAdvancesPC := by
  refine fun s => ⟨rfl, exec_nop s, fun hr hp hop => ?_⟩
  calc step s = exec s.fetch (s.advancePC 1) := step_exec hr hp
    _ = .next (s.advancePC 1) := by rw [fetch_nop hop, exec_nop]
    _ = .next { s with pc := s.pc + 1 } := rfl
end

section
/-! SUPPORT. Which host commands are answered with an error, and which error (R206). -/

namespace Sys2Proof.Machine.State

/-- `load_program` raises CapacityError exactly on more than 0x8000 bytes. -/
theorem loadProgram_capacityError_iff {s : State} {bs : List Byte} :
    s.loadProgram bs = .error .capacityError ↔ Config.maxProgramLength < bs.length := by
  unfold loadProgram
  split
  next hlong => exact iff_of_true rfl hlong
  next hshort => exact iff_of_false nofun hshort

/-- Between runs every host command but `load_program` is carried out. -/
theorem hostCommand_ok_of_ne_loadProgram {s : State} {c : HostCommand} (hr : s.runState ≠ .running)
    (hc : ∀ bs, c ≠ .loadProgram bs) : ∃ t, s.hostCommand c = .ok t := by
  cases c with
  | loadProgram bs => exact absurd rfl (hc bs)
  | new | reset | run | writeA v | writeX v | writeY v | writeP v | writeSP v | writePC w
  | writeMemory a v => exact ⟨_, if_neg hr⟩

/-- A command answered with CapacityError was issued between runs: during one the answer is `runInProgress`. -/
theorem runState_ne_running_of_capacityError {s : State} {c : HostCommand}
    (h : s.hostCommand c = .error .capacityError) : s.runState ≠ .running := fun hr => by
  rw [hostCommand_running hr] at h
  cases h

/-- Only `load_program` is answered with CapacityError. -/
theorem eq_loadProgram_of_capacityError {s : State} {c : HostCommand}
    (h : s.hostCommand c = .error .capacityError) : ∃ bs, c = .loadProgram bs := by
  by_contra hc
  obtain ⟨t, ht⟩ := hostCommand_ok_of_ne_loadProgram (runState_ne_running_of_capacityError h)
    (not_exists.mp hc)
  cases ht.symm.trans h

end Sys2Proof.Machine.State

open Sys2Proof Sys2Proof.Machine Sys2Proof.Machine.State

/-- Settles O23: every execution completes, and its frame keeps the run state. -/
theorem everyInstructionCompletes : Obligations.EveryInstructionCompletes := by
  intro i s
  obtain ⟨t, ht⟩ := exec_completes i s
  exact ⟨t, ht, (exec_frame ht).runState⟩

/-- Settles O46: CapacityError comes from `load_program` between runs only, and there from its length check. -/
theorem capacityErrorExactlyForOversizedPrograms :
    Obligations.CapacityErrorExactlyForOversizedPrograms := by
  intro s c
  constructor
  · intro h
    have hr := runState_ne_running_of_capacityError h
    obtain ⟨bs, rfl⟩ := eq_loadProgram_of_capacityError h
    exact ⟨hr, bs, rfl, loadProgram_capacityError_iff.mp ((hostCommand_loadProgram hr bs).symm.trans h)⟩
  · rintro ⟨hr, bs, rfl, hlen⟩
    exact (hostCommand_loadProgram hr bs).trans (loadProgram_capacityError_iff.mpr hlen)
end

section
/-! SUPPORT. What new, reset and load_program leave: the host commands of R230, R232 and R233, and the boot
sequence made of them. -/

namespace Sys2Proof.Machine.State

/-- The model's reset state is that of a new machine after `reset()` (R230, R232). -/
theorem reset_eq_resetCommand : State.reset = State.new.resetCommand := rfl

/-- `load_program` of at most 0x8000 bytes succeeds (R206, R233). -/
theorem loadProgram_of_length_le {s : State} {bs : List Byte} (hl : bs.length ≤ Config.maxProgramLength) :
    ∃ t, s.loadProgram bs = .ok t :=
  ⟨_, if_neg (Nat.not_lt.mpr hl)⟩

/-- What a byte read sees after `load_program`: the vector is written last, over the program (R233). -/
theorem readByte_loadProgram {s t : State} {bs : List Byte} (hm : Memory.wf s.mem)
    (h : s.loadProgram bs = .ok t) (a : Word) :
    t.readByte a =
      if a = 0xFFFC then 0x00
      else if a = 0xFFFD then 0x80
      else if 0x8000 ≤ a.toNat then (bs[a.toNat - 0x8000]?).getD (s.readByte a)
      else s.readByte a := by
  obtain ⟨hl, rfl⟩ := loadProgram_ok h
  have hfits : Config.loadAddress.toNat + bs.length ≤ Config.memorySize := Nat.add_le_add_left hl 0x8000
  have hvector : ∀ b : Word, b = 0xFFFD → ¬ b = 0xFFFC := fun b hb => hb ▸ by decide
  have hread := readByte_writeWord (placeBytes_wf bs s Config.loadAddress hm) Config.resetVector
    Config.loadAddress a
  rw [readByte_placeBytes bs s _ hm hfits] at hread
  exact hread.trans (ite_ite_comm _ _ _ _ (hvector a))

/-- After `load_program` the vector holds the load address (R233). -/
theorem resetCommand_pc_of_loadProgram {s t : State} {bs : List Byte} (hm : Memory.wf s.mem)
    (h : s.loadProgram bs = .ok t) : t.resetCommand.pc = Config.loadAddress := by
  have hread := readByte_loadProgram hm h
  rw [resetCommand_pc, hread, hread, if_neg (by decide), if_pos rfl, if_pos rfl]
  rfl

/-- After `load_program` the program's bytes below the vector stand from the load address on (R233). -/
theorem getElem?_of_loadProgram {s t : State} {bs : List Byte} (hm : Memory.wf s.mem)
    (h : s.loadProgram bs = .ok t) {k : Nat} (hk : k < bs.length) (hv : k < 0x7FFC) :
    bs[k]? = some (t.readByte (BitVec.ofNat 16 (0x8000 + k))) := by
  have ha : (BitVec.ofNat 16 (0x8000 + k)).toNat = 0x8000 + k := by
    rw [BitVec.toNat_ofNat]
    omega
  have hne (w : Word) (hw : 0xFFFC ≤ w.toNat) : BitVec.ofNat 16 (0x8000 + k) ≠ w := by
    rintro rfl
    omega
  rw [readByte_loadProgram hm h, if_neg (hne _ (by decide)), if_neg (hne _ (by decide)), ha,
    if_pos (Nat.le_add_right _ _), Nat.add_sub_cancel_left, List.getElem?_eq_getElem hk]
  rfl

/-- The boot sequence resets the machine that `load_program` leaves (R235). -/
theorem bootProgram_of_loadProgram {t : State} {bs : List Byte} (h : State.new.loadProgram bs = .ok t) :
    bootProgram bs = .ok t.resetCommand := by
  rw [bootProgram, h]

end Sys2Proof.Machine.State

open Sys2Proof Sys2Proof.Machine Sys2Proof.Machine.State

/-- Settles O39: the invariant holds of a new machine, and the `reset()` that gives the reset state keeps
it. -/
theorem resetMeetsInvariant : Obligations.ResetMeetsInvariant :=
  ⟨reset_eq_resetCommand ▸ hostCommand_inv new_inv (hostCommand_reset (by decide)), new_inv⟩

/-- Settles O42: the memory of a new machine lists no byte. -/
theorem newIsAllZero : Obligations.NewIsAllZero :=
  ⟨fun a => Memory.get_nil a.toNat, rfl, rfl, rfl, rfl, rfl, rfl, rfl, rfl⟩

/-- Settles O43: the word `reset()` reads is that of the two vector bytes. -/
theorem resetLoadsTheVector : Obligations.ResetLoadsTheVector :=
  ⟨resetCommand_eq, reset_eq_resetCommand⟩

/-- Settles O45: `load_program` writes memory and pc only, and memory in the order of D11. -/
theorem loadProgramWritesProgramAndVector : Obligations.LoadProgramWritesProgramAndVector := by
  intro s b hm hl
  obtain ⟨t, ht⟩ := loadProgram_of_length_le (s := s) hl
  have hread := readByte_loadProgram hm ht
  obtain ⟨-, rfl⟩ := loadProgram_ok ht
  exact ⟨_, ht, hread⟩

/-- Settles O47: `reset()` loads pc from the vector that `load_program` has written, and keeps the program's
bytes. -/
theorem bootReproducesTheLoadedProgram : Obligations.BootReproducesTheLoadedProgram := by
  intro b hl
  obtain ⟨t, ht⟩ := loadProgram_of_length_le (s := State.new) hl
  have hy : t.y = State.new.y := by
    obtain ⟨-, rfl⟩ := loadProgram_ok ht
    rfl
  exact ⟨t.resetCommand, bootProgram_of_loadProgram ht, resetCommand_pc_of_loadProgram Memory.wf_nil ht,
    rfl, rfl, rfl, hy, rfl, rfl, fun k => getElem?_of_loadProgram Memory.wf_nil ht⟩
end

section
/-! SUPPORT. The run state after a step and after a host command; the loop of `run()` and the steps it takes;
a run that passes the top of memory again and again. -/

namespace Sys2Proof.Machine

/-- A step keeps Running, except that it halts at the sentinel (R237, R240). -/
theorem step_runState {s t : State} (h : step s = .next t) :
    t.runState = if s.pc = Config.sentinel then .halted else .running := by
  obtain ⟨hr, ⟨hp, rfl⟩ | ⟨hp, hx⟩⟩ := step_next h
  · rw [if_pos hp, State.halt_runState]
  · rw [if_neg hp]
    exact (exec_frame hx).runState.trans hr

/-- `load_program` leaves the run state (R237). -/
theorem State.loadProgram_runState {s t : State} {bs : List Byte} (h : s.loadProgram bs = .ok t) :
    t.runState = s.runState := by
  obtain ⟨-, rfl⟩ := State.loadProgram_ok h
  rfl

/-- A run of at least one step, where the first step is refused. -/
theorem run_refused {s : State} {r : Refusal} (h : step s = .refused r) (n : Nat) :
    Host.Core.run core (n + 1) s = .refused r := by
  have hs : core.step s = .refused r := h
  simp [Host.Core.run, hs]

/-- A run of one more step that answers a next state took a first step and went on from there. -/
theorem exists_step_of_run_succ {s u : State} {n : Nat} (h : Host.Core.run core (n + 1) s = .next u) :
    ∃ t, step s = .next t ∧ Host.Core.run core n t = .next u := by
  cases hs : step s with
  | next t => exact ⟨t, rfl, (run_next hs n).symm.trans h⟩
  | fault r => cases (run_fault hs n).symm.trans h
  | refused r => cases (run_refused hs n).symm.trans h

/-- `n` steps from `s` reach a Running state at the sentinel, of which `t` is the halted version. -/
def HaltsAfter (s : State) (n : Nat) (t : State) : Prop :=
  ∃ u, Host.Core.run core n s = .next u ∧ u.runState = .running ∧ u.pc = Config.sentinel ∧ t = u.halt

/-- One step more from the state before. -/
theorem HaltsAfter.succ {s s' t : State} {n : Nat} (hs : step s = .next s') (h : HaltsAfter s' n t) :
    HaltsAfter s (n + 1) t := by
  obtain ⟨u, hrun, hu⟩ := h
  exact ⟨u, (run_next hs n).trans hrun, hu⟩

/-- Where the loop of a Running machine ends, it has reached the sentinel (R239, R240). -/
theorem haltsAfter_of_runLoop (fuel : Nat) : ∀ {s t : State}, s.runState = .running →
    State.runLoop fuel s = some t → ∃ n, HaltsAfter s n t := by
  induction fuel with
  | zero =>
    intro s t hr h
    rw [State.runLoop, if_pos hr] at h
    cases h
  | succ fuel ih =>
    intro s t hr h
    obtain ⟨s', hs⟩ := step_of_running hr
    rw [State.runLoop_next hs] at h
    have hr' := step_runState hs
    by_cases hp : s.pc = Config.sentinel
    · rw [if_pos hp] at hr'
      cases (step_sentinel hr hp).symm.trans hs
      cases (State.runLoop_stop (by simp) fuel).symm.trans h
      exact ⟨0, s, rfl, hr, hp, rfl⟩
    · rw [if_neg hp] at hr'
      obtain ⟨n, hn⟩ := ih hr' h
      exact ⟨n + 1, hn.succ hs⟩

/-- Where `n` steps reach the sentinel, the loop ends after one more (R239, R240). -/
theorem HaltsAfter.runLoop {n : Nat} : ∀ {s t : State}, HaltsAfter s n t →
    State.runLoop (n + 1) s = some t := by
  induction n with
  | zero =>
    rintro s t ⟨u, hrun, hr, hp, rfl⟩
    cases hrun
    rw [State.runLoop_next (step_sentinel hr hp), State.runLoop_stop (by simp)]
  | succ n ih =>
    rintro s t ⟨u, hrun, hu⟩
    obtain ⟨s', hs, hrun'⟩ := exists_step_of_run_succ hrun
    rw [State.runLoop_next hs]
    exact ih ⟨u, hrun', hu⟩

/-- `run()` returns exactly where some number of steps reaches the sentinel (R242). -/
theorem runReturns_iff {s t : State} : s.RunReturns t ↔ ∃ n, HaltsAfter s.beginRun n t :=
  ⟨fun ⟨fuel, h⟩ => haltsAfter_of_runLoop fuel rfl h, fun ⟨n, h⟩ => ⟨n + 1, h.runLoop⟩⟩

/-- A new machine with one byte written: the opcode of LDA Immediate, at 0xFFFE. -/
def wrappingProgram : State := State.new.writeByte 0xFFFE 0xA9

/-- A Running machine on the memory of `wrappingProgram`, away from the sentinel: it passes unknown opcodes
up to 0xFFFE, where LDA Immediate has its operand byte at 0xFFFF and takes pc to 0x0000 (R241, R242). -/
structure Wrapping (s : State) : Prop where
  running : s.runState = .running
  pc_ne : s.pc ≠ Config.sentinel
  mem : s.mem = wrappingProgram.mem

/-- What stands at pc: LDA Immediate's opcode at 0xFFFE, the unknown opcode 0x00 elsewhere. -/
theorem Wrapping.opcode {s : State} (h : Wrapping s) :
    s.readByte s.pc = if s.pc = 0xFFFE then 0xA9 else 0x00 :=
  calc s.readByte s.pc = wrappingProgram.readByte s.pc := State.readByte_congr h.mem s.pc
    _ = if s.pc = 0xFFFE then 0xA9 else State.new.readByte s.pc :=
      State.readByte_writeByte Memory.wf_nil _ _ _

/-- Neither of the two instructions stores. -/
theorem Wrapping.storeOf_fetch {s : State} (h : Wrapping s) (u : State) : storeOf s.fetch u = none := by
  rw [State.fetch, h.opcode]
  split <;> rfl

/-- Neither of the two instructions leads to the sentinel. -/
theorem Wrapping.step {s : State} (h : Wrapping s) : ∃ t, step s = .next t ∧ Wrapping t := by
  obtain ⟨t, ht, hr, hpc⟩ := step_pc h.running h.pc_ne
  refine ⟨t, ht, hr, fun hsent => ?_, ?_⟩
  · have hlt := toNat_lt_sentinel h.pc_ne
    rw [hsent, h.opcode, show Config.sentinel.toNat = 0xFFFF from rfl] at hpc
    split at hpc
    next hp =>
      rw [hp, show opcodeLength 0xA9 = 2 from rfl] at hpc
      cases hpc
    next hp =>
      rw [show opcodeLength 0x00 = 1 from rfl] at hpc
      exact hp (BitVec.eq_of_toNat_eq (show s.pc.toNat = 0xFFFE by omega))
  · obtain ⟨-, ⟨hsent, -⟩ | ⟨-, hx⟩⟩ := step_next ht
    · exact absurd hsent h.pc_ne
    · exact (exec_mem_of_no_store (h.storeOf_fetch _) hx).trans h.mem

/-- The run goes on after every number of steps. -/
theorem Wrapping.run (n : Nat) : ∀ {s : State}, Wrapping s →
    ∃ u, Host.Core.run core n s = .next u ∧ Wrapping u := by
  induction n with
  | zero => exact fun {s} h => ⟨s, rfl, h⟩
  | succ n ih =>
    intro s h
    obtain ⟨t, ht, htw⟩ := h.step
    obtain ⟨u, hu, huw⟩ := ih htw
    exact ⟨u, (run_next ht n).trans hu, huw⟩

/-- A run that never reaches the sentinel is not `run()` returning (R242). -/
theorem Wrapping.not_haltsAfter {s : State} (h : Wrapping s) (n : Nat) (t : State) : ¬ HaltsAfter s n t := by
  rintro ⟨u, hu, -, hp, -⟩
  obtain ⟨v, hv, hvw⟩ := h.run n
  cases hv.symm.trans hu
  exact hvw.pc_ne hp

/-- The run of `wrappingProgram` starts at pc 0x0000. -/
theorem wrapping_beginRun : Wrapping wrappingProgram.beginRun := ⟨rfl, by decide, rfl⟩

/-- The host brings `wrappingProgram` about by one write of memory. -/
theorem reachable_wrappingProgram : Reachable wrappingProgram :=
  .command (.writeMemory 0xFFFE 0xA9) .new (State.hostCommand_writeMemory (by decide) _ _)

end Sys2Proof.Machine

open Sys2Proof Sys2Proof.Machine Sys2Proof.Machine.State

/-- Settles O33: a step needs Running, and there it completes. -/
theorem stepsOnlyWhileRunning : Obligations.StepsOnlyWhileRunning :=
  fun _ => ⟨fun ⟨_, h⟩ => (step_next h).1, step_of_running⟩

/-- Settles O48: the step's move, and the host's by cases on the command. -/
theorem runStateMoves : Obligations.RunStateMoves := by
  refine ⟨fun s t h => ⟨(step_next h).1, step_runState h⟩, fun s => ⟨rfl, rfl⟩, fun s t c h => ?_⟩
  have hr := runState_ne_running_of_hostCommand h
  cases c with
  | loadProgram bs => exact loadProgram_runState ((hostCommand_loadProgram hr bs).symm.trans h)
  | new | reset | run | writeA v | writeX v | writeY v | writeP v | writeSP v | writePC w
  | writeMemory a v => cases h.symm.trans (if_neg hr); rfl

/-- Settles O50: the loop of `run()` takes one step more than reaches the sentinel. -/
theorem runReturnsExactlyAtTheSentinel : Obligations.RunReturnsExactlyAtTheSentinel :=
  fun _ _ => runReturns_iff

/-- Settles O53: a run that passes from 0xFFFE to 0x0000 each time never reaches the sentinel. -/
theorem someRunNeverReturns : Obligations.SomeRunNeverReturns := by
  refine ⟨wrappingProgram, reachable_wrappingProgram, by decide, fun n => ?_, fun t ht => ?_⟩
  · obtain ⟨u, hu, huw⟩ := wrapping_beginRun.run n
    exact ⟨u, hu, huw.running⟩
  · obtain ⟨n, hn⟩ := runReturns_iff.mp ht
    exact wrapping_beginRun.not_haltsAfter n t hn
end

section
/-! SUPPORT. The words of the spec's encodings, each as the encoding of its instruction and the bytes after
it. -/

open Sys2Proof

/-- Settles O3: each word is the encoding of a well-formed instruction, followed by no byte or by 0x10. -/
theorem sampleWordsDecode : Obligations.SampleWordsDecode :=
  ⟨decodeInvertsEncode (.ldaImm 0x80) [] rfl,
    decodeInvertsEncode (.ldaAbsX 0x12F0) [] rfl,
    decodeInvertsEncode (.staIndY 0x00) [] rfl,
    decodeInvertsEncode (.staAbs 0xFFFC) [] rfl,
    decodeInvertsEncode .txs [] rfl,
    decodeInvertsEncode .inx [] rfl,
    decodeInvertsEncode .pla [] rfl,
    decodeInvertsEncode .php [] rfl,
    decodeInvertsEncode .nop [] rfl,
    decodeInvertsEncode (.unknown 0x89) [0x10] rfl⟩
end
